-- ==== Sys2Proof/Word.lean ====
section
/-! DEFINITION. The byte and the register number: the only word types of the CORE (00_scope.md R4, R5, R6). -/

namespace Sys2Proof

/-- Every register, pc, FL and memory cell holds an unsigned value in 0..255 (R4); addresses are 8 bits too (R5). -/
abbrev Byte := BitVec 8

/-- The index of a general register, 0 to 7 (R6). -/
abbrev Reg := Fin 8

/-- Register 7 is the stack pointer (R6, R22). -/
abbrev Reg.sp : Reg := 7

/-- The operand byte that names a register: the whole byte is the index (R65). -/
def Reg.toByte (r : Reg) : Byte := BitVec.ofNat 8 r.val

end Sys2Proof
end

