-- ==== Sys2Proof/Config.lean ====
section
/-! DEFINITION. The parameters that 92_eei_decisions.md names, each at the default the spec gives it. The operations
that depend on one take it as an argument, so that a claim can quantify over it; the meanings pass the default.
`opcodeMap` (D1) is the table of Machine/Opcodes.lean. `diagToOut` and `legacyLogicDefect` are fixed at false by
00_scope.md's parameter table (log entries 8 and 10). -/

namespace Sys2Proof.Config

/-- What pc holds after HLT (D6). -/
inductive PcAfterHalt where
  | unchanged
  | plusOne
  deriving DecidableEq, Repr

/-- D6, default unchanged (R120). A claim must not read pc in HALTED (U2). -/
def pcAfterHalt : PcAfterHalt := .unchanged

/-- The bit of FL that holds E: D2, default 0 (R27). -/
def flEBit : Fin 8 := 0

/-- What ends a printed line: D8, default one line feed (R123). -/
def lineEnd : List Char := ['\n']

end Sys2Proof.Config
end

