-- ==== Sys2Proof/Syntax.lean ====
section
/-! DEFINITION. Instructions as the decoder reports them (30_encoding.md R60 to R66). -/

namespace Sys2Proof

/-- The 17 recognised instructions, in the order of the dispatch table (R66). -/
inductive Mnemonic where
  | hlt | ldi | prn | add | mul | cmp | and | or | xor | not | push | pop | call | ret | jmp | jeq | jne
  deriving DecidableEq, Repr

/-- The three instruction formats (R60). -/
inductive Format where
  | f0
  | f1
  | f2
  deriving DecidableEq, Repr

/-- One instruction, one constructor per row of spec/opcode_table.json. A register operand is the whole operand
byte (R65): values 8..255 are encodable, and the operand check makes them fault (R174). -/
inductive Instr where
  | hlt
  | ldi (a imm : Byte)
  | prn (a : Byte)
  | add (a b : Byte)
  | mul (a b : Byte)
  | cmp (a b : Byte)
  | and (a b : Byte)
  | or (a b : Byte)
  | xor (a b : Byte)
  | not (a : Byte)
  | push (a : Byte)
  | pop (a : Byte)
  | call (a : Byte)
  | ret
  | jmp (a : Byte)
  | jeq (a : Byte)
  | jne (a : Byte)
  /-- Any opcode byte outside the dispatch table (R68, R160), with the operand bytes its length makes the decoder
  fetch (R62); they are carried so that decoding drops no byte, and nothing reads them. -/
  | unrecognised (op : Byte) (a b : Option Byte)
  deriving DecidableEq, Repr

end Sys2Proof
end

