-- ==== Sys2Proof/Machine/State.lean ====
section
/-! DEFINITION. The state of the CORE (10_state.md), as plain data, and the state after reset (70_reset_and_hazards.md
R190). -/

namespace Sys2Proof.Machine

/-- The run state of the fetch-decode-execute state machine (R30, R80). -/
inductive RunState where
  /-- The CORE executes one instruction per step. -/
  | running
  /-- Terminal, reached only via HLT (R84). -/
  | halted
  /-- Terminal, after an out-of-range register index (R85, R174). -/
  | faulted
  deriving DecidableEq, Repr

/-- One unrecognised-opcode report: the opcode byte and its address (R161). -/
structure Report where
  opcode : Byte
  addr : Byte
  deriving DecidableEq, Repr

/-- What Fault(BadRegisterIndex) records: the operand byte and the instruction's address (R174, R175). -/
structure FaultRecord where
  index : Byte
  addr : Byte
  deriving DecidableEq, Repr

/-- Memory as its nonzero cells, in rising order of address: a cell that is not listed holds 0 (R43). -/
abbrev Memory := List Host.Cell

/-- The canonical form: addresses rise strictly and lie in 0..255 (R40), and no listed cell holds 0. Equal memories are
then equal lists. -/
abbrev Memory.wf (m : Memory) : Prop :=
  m.Pairwise (fun c d => c.1 < d.1) ∧ ∀ c ∈ m, c.1 < 256 ∧ c.2 ≠ 0

/-- The architectural state (10_state.md, table; R33). -/
structure State where
  /-- The general registers x[0..7] (R20). -/
  regs : Vector Byte 8
  /-- The program counter (R24). -/
  pc : Byte
  /-- The flags register FL (R27). -/
  fl : Byte
  /-- The run state (R30). -/
  runState : RunState
  /-- The 256 memory cells (R40). -/
  mem : Memory
  /-- The values written by PRN, oldest first (R33). -/
  out : List Byte
  /-- The unrecognised-opcode reports, oldest first (R33). -/
  diag : List Report
  /-- What the fault that stopped the CORE recorded (R174, R175). DESIGN CHOICE: the spec names the recorded values and
  no place for them; the model gives them this field (log entry 4). -/
  faultRecord : Option FaultRecord
  deriving DecidableEq, Repr

/-- Why `step` has no next state. -/
inductive Fault where
  /-- Raised by `step` alone, in HALTED: HALTED has no step (R80, R84). Safe: nothing is claimed past it. -/
  | halted
  /-- Raised by `step` alone, in FAULTED: FAULTED has no step (R80, R85). Safe: nothing is claimed past it. -/
  | faulted
  deriving DecidableEq, Repr

/-- Why an instruction has no meaning. -/
inductive Refusal where
  /-- Raised by `exec` alone, for an instruction without a meaning in this model. Safe. No arm of `exec` raises it:
  every instruction has its meaning. -/
  | notModelled (mnemonic : String)
  deriving DecidableEq, Repr

/-- The state after reset, before an image is loaded (R190). -/
def State.reset : State where
  regs := #v[0x00, 0x00, 0x00, 0x00, 0x00, 0x00, 0x00, 0xF4]
  pc := 0x00
  fl := 0x00
  runState := .running
  mem := []
  out := []
  diag := []
  faultRecord := none

end Sys2Proof.Machine
end

