-- ==== Sys2Proof/Machine/Ops.lean ====
section
/-! DEFINITION. The named operations over registers, memory, outputs and run state (00_scope.md R10 to R12), and the one
shared operation by which an instruction faults (60_exceptions.md R174). There is no return from a fault: no handler
exists (R178), and only a reset leaves FAULTED (Machine/Image.lean). -/

namespace Sys2Proof.Machine

/-- One machine outcome. -/
abbrev Result := Host.Outcome State Fault Refusal

/-- `a mod 256` as an address or a byte: what every address and every stored value is taken to (R5, R10, R11). -/
def wrap (a : Int) : Byte := BitVec.ofInt 8 a

/-! ## Memory -/

/-- The byte of a cell; an unlisted cell holds 0 (R43). -/
def Memory.read : Memory → Nat → Byte
  | [], _ => 0
  | (k, v) :: m, a => if a = k then v else read m a

/-- List a nonzero cell at its place in the rising order. -/
def Memory.insert : Memory → Nat → Byte → Memory
  | [], a, v => [(a, v)]
  | (k, w) :: m, a, v => if a < k then (a, v) :: (k, w) :: m else (k, w) :: insert m a v

/-- Store a byte in a cell: the old entry goes, and a nonzero byte is listed (R42). -/
def Memory.write (m : Memory) (a : Nat) (v : Byte) : Memory :=
  let rest := m.filter fun c => c.1 ≠ a
  if v = 0 then rest else Memory.insert rest a v

/-- `MemRead(a, 1)` at an 8-bit address (R11, R41). -/
def memRead (a : Byte) (s : State) : Byte := s.mem.read a.toNat

/-- `MemWrite(a, 1, v)` at an 8-bit address (R11, R41). -/
def memWrite (a v : Byte) (s : State) : State := { s with mem := s.mem.write a.toNat v }

/-- `MemRead(a, 1)` at any integer address: cell `a mod 256`, never a failure (R11, R41). -/
def memReadAt (a : Int) (s : State) : Byte := memRead (wrap a) s

/-- `MemWrite(a, 1, v)` at any integer address: stores `v mod 256` in cell `a mod 256`, never a failure (R11, R41). -/
def memWriteAt (a v : Int) (s : State) : State := memWrite (wrap a) (wrap v) s

/-! ## Registers, pc and run state -/

/-- `x[r]` (R10). -/
def State.reg (s : State) (r : Reg) : Byte := s.regs[r]

/-- `x[r] <- v` (R10). No register is hard-wired (R20). -/
def State.setReg (s : State) (r : Reg) (v : Byte) : State := { s with regs := s.regs.set r v }

/-- `SP` is another name for `x[7]` (R10, R22). -/
def State.sp (s : State) : Byte := s.reg Reg.sp

/-- `SP <- v` (R10). -/
def State.setSp (s : State) (v : Byte) : State := s.setReg Reg.sp v

/-- `pc <- v` (R10): an explicit jump, nothing is added afterwards (R83). -/
def State.jump (s : State) (target : Byte) : State := { s with pc := target }

/-- `pc <- pc + len`, mod 256 (R26): the default advance. -/
def State.advance (s : State) (len : Nat) : State := { s with pc := s.pc + BitVec.ofNat 8 len }

/-- `halt` (R12), with pc as decision D6 says: the default keeps the address of the HLT (R120, log entry 7). -/
def haltWith (after : Config.PcAfterHalt) (s : State) : State :=
  match after with
  | .unchanged => { s with runState := .halted }
  | .plusOne => { s with runState := .halted, pc := s.pc + 1 }

/-! ## Outputs -/

/-- `emit_out(v)` (R12, R123). -/
def emitOut (v : Byte) (s : State) : State := { s with out := s.out ++ [v] }

/-- `emit_diag(op, a)` (R12, R161). -/
def emitDiag (op a : Byte) (s : State) : State := { s with diag := s.diag ++ [⟨op, a⟩] }

/-! ## The stack's two pointer moves -/

/-- `SP <- SP - 1`, mod 256 (R130, R131). -/
def decSp (s : State) : State := s.setSp (s.sp - 1)

/-- `SP <- SP + 1`, mod 256 (R130, R132). -/
def incSp (s : State) : State := s.setSp (s.sp + 1)

/-! ## Faulting -/

/-- `raise Fault(BadRegisterIndex, r)` (R12, R174): the run state becomes FAULTED, r and the instruction's address are
recorded (R175), and no register, FL, memory cell, pc or output changes (R177). -/
def raiseBadRegister (r : Byte) (s : State) : State :=
  { s with runState := .faulted, faultRecord := some ⟨r, s.pc⟩ }

end Sys2Proof.Machine
end

