-- ==== Sys2Proof/Machine/Flags.lean ====
section
/-! DEFINITION. The flags register: how CMP writes it and how JEQ and JNE read it (10_state.md R27, R28). No other
instruction touches FL, so there is no other flag computation. The place of E is an argument (D2, `flEBit`). -/

namespace Sys2Proof.Machine

/-- The FL byte that holds only E: `zext_8(E)` when E is bit 0 (R12, R28). -/
def flagsByte (bit : Fin 8) (e : Bool) : Byte := if e then 1#8 <<< bit.val else 0#8

/-- `FL.E`: the equal bit alone (R10, R145). -/
def equalBit (bit : Fin 8) (fl : Byte) : Bool := fl.getLsbD bit.val

/-- E in the current state. -/
def State.equal (s : State) : Bool := equalBit Config.flEBit s.fl

/-- `FL <- zext_8(E)`: all of FL is written (R28, R107). -/
def State.setEqual (s : State) (e : Bool) : State := { s with fl := flagsByte Config.flEBit e }

end Sys2Proof.Machine
end

