-- ==== Sys2Proof/Machine/Operands.lean ====
section
/-! DEFINITION. The operand forms (30_encoding.md R64, R65) and the operand check, which comes before any effect
(40_engine.md R81, phase 2). -/

namespace Sys2Proof.Machine

/-- The register that an operand byte names: the whole byte is the index, without masking (R65). -/
def registerOf (a : Byte) : Option Reg :=
  if h : a.toNat < 8 then some ⟨a.toNat, h⟩ else none

/-- An immediate is the whole byte, taken as is (R65). -/
def immediateOf (b : Byte) : Byte := b

/-- Run `effect` with the register that operand A names, or fault on it (R174). -/
def withRegister (a : Byte) (s : State) (effect : Reg → State) : Result :=
  match registerOf a with
  | some ra => .next (effect ra)
  | none => .next (raiseBadRegister a s)

/-- Run `effect` with the registers that operands A and B name; the check takes A before B (R174, R176). -/
def withRegisters (a b : Byte) (s : State) (effect : Reg → Reg → State) : Result :=
  match registerOf a with
  | some ra => withRegister b s (effect ra)
  | none => .next (raiseBadRegister a s)

end Sys2Proof.Machine
end

