-- ==== Sys2Proof/Machine/Alu.lean ====
section
/-! DEFINITION. ADD, MUL, CMP, AND, OR, XOR, NOT (41_alu.md). The ALU is a pure function of its operand values (R89);
both operands are read before anything is written (R100). OR, XOR and NOT follow the correct semantics (D15, log
entry 10). -/

namespace Sys2Proof.Machine

/-- The exact unsigned sum mod 256 (R101, R109). -/
def aluAdd (x y : Byte) : Byte := BitVec.ofNat 8 (x.toNat + y.toNat)

/-- The low 8 bits of the exact unsigned product (R102, R109). -/
def aluMul (x y : Byte) : Byte := BitVec.ofNat 8 (x.toNat * y.toNat)

/-- Bitwise AND (R103). -/
def aluAnd (x y : Byte) : Byte := x &&& y

/-- Bitwise OR (R104). -/
def aluOr (x y : Byte) : Byte := x ||| y

/-- Bitwise exclusive OR (R105). -/
def aluXor (x y : Byte) : Byte := x ^^^ y

/-- The 8-bit complement (R106). -/
def aluNot (x : Byte) : Byte := ~~~x

/-- Equality, the only comparison (R107). -/
def aluEqual (x y : Byte) : Bool := x == y

/-- `x[A] <- f(x[A], x[B]); pc <- pc + 3` after the operand check (R100). -/
def aluBinary (f : Byte → Byte → Byte) (a b : Byte) (s : State) : Result :=
  withRegisters a b s fun ra rb => (s.setReg ra (f (s.reg ra) (s.reg rb))).advance 3

/-- ADD (R101). -/
def execAdd (a b : Byte) (s : State) : Result := aluBinary aluAdd a b s

/-- MUL (R102). -/
def execMul (a b : Byte) (s : State) : Result := aluBinary aluMul a b s

/-- AND (R103). -/
def execAnd (a b : Byte) (s : State) : Result := aluBinary aluAnd a b s

/-- OR (R104). -/
def execOr (a b : Byte) (s : State) : Result := aluBinary aluOr a b s

/-- XOR (R105). -/
def execXor (a b : Byte) (s : State) : Result := aluBinary aluXor a b s

/-- NOT (R106). -/
def execNot (a : Byte) (s : State) : Result :=
  withRegister a s fun ra => (s.setReg ra (aluNot (s.reg ra))).advance 2

/-- CMP (R107). -/
def execCmp (a b : Byte) (s : State) : Result :=
  withRegisters a b s fun ra rb => (s.setEqual (aluEqual (s.reg ra) (s.reg rb))).advance 3

end Sys2Proof.Machine
end

