-- ==== Sys2Proof/Machine/Control.lean ====
section
/-! DEFINITION. CALL, RET, JMP, JEQ, JNE (44_control_transfer.md). Every target is absolute, from a register or from the
stack (R140). -/

namespace Sys2Proof.Machine

/-- CALL (R141): `SP <- SP - 1; MemWrite(SP, 1, pc + 2); pc <- x[A]`, in that order, so `CALL R7` jumps to the
decremented SP (D5, log entry 6). -/
def execCall (a : Byte) (s : State) : Result :=
  withRegister a s fun ra =>
    let s1 := decSp s
    let s2 := memWrite s1.sp (s.pc + 2) s1
    s2.jump (s2.reg ra)

/-- RET (R142): `pc <- MemRead(SP, 1); SP <- SP + 1`. -/
def execRet (s : State) : Result := .next (incSp (s.jump (memRead s.sp s)))

/-- JMP (R143). -/
def execJmp (a : Byte) (s : State) : Result :=
  withRegister a s fun ra => s.jump (s.reg ra)

/-- JEQ (R144): the operand check happens whether or not the jump is taken. -/
def execJeq (a : Byte) (s : State) : Result :=
  withRegister a s fun ra => if s.equal then s.jump (s.reg ra) else s.advance 2

/-- JNE (R145): tests bit E alone. -/
def execJne (a : Byte) (s : State) : Result :=
  withRegister a s fun ra => if s.equal then s.advance 2 else s.jump (s.reg ra)

end Sys2Proof.Machine
end

