-- ==== Sys2Proof/Machine/DataIoHalt.lean ====
section
/-! DEFINITION. HLT, LDI, PRN (42_data_io_halt.md). -/

namespace Sys2Proof.Machine

/-- HLT (R120). -/
def execHlt (s : State) : Result := .next (haltWith Config.pcAfterHalt s)

/-- LDI (R121): B is never checked. -/
def execLdi (a imm : Byte) (s : State) : Result :=
  withRegister a s fun ra => (s.setReg ra (immediateOf imm)).advance 3

/-- PRN (R122). -/
def execPrn (a : Byte) (s : State) : Result :=
  withRegister a s fun ra => (emitOut (s.reg ra) s).advance 2

end Sys2Proof.Machine
end

