-- ==== Sys2Proof/Machine/Stack.lean ====
section
/-! DEFINITION. PUSH, POP (43_stack.md). The statements run in the written order and a later one sees the writes of an
earlier one (R13); with R7 as operand that order is decision D5 (log entry 6). -/

namespace Sys2Proof.Machine

/-- PUSH (R131): `SP <- SP - 1; MemWrite(SP, 1, x[A]); pc <- pc + 2`. -/
def execPush (a : Byte) (s : State) : Result :=
  withRegister a s fun ra =>
    let s1 := decSp s
    (memWrite s1.sp (s1.reg ra) s1).advance 2

/-- POP (R132): `x[A] <- MemRead(SP, 1); SP <- SP + 1; pc <- pc + 2`. -/
def execPop (a : Byte) (s : State) : Result :=
  withRegister a s fun ra =>
    let s1 := s.setReg ra (memRead s.sp s)
    (incSp s1).advance 2

end Sys2Proof.Machine
end

