-- ==== Sys2Proof/Machine/Opcodes.lean ====
section
/-! DEFINITION. The opcode map and the length rule (30_encoding.md R61, R64, R66). Both the decoder and the
encoder read this one table. -/

namespace Sys2Proof

/-- The recognised instructions, in table order (R66). -/
def Mnemonic.all : List Mnemonic :=
  [.hlt, .ldi, .prn, .add, .mul, .cmp, .and, .or, .xor, .not, .push, .pop, .call, .ret, .jmp, .jeq, .jne]

/-- The opcode byte of each instruction (R66). HLT, LDI and PRN are the source's; PRESUMED: the other fourteen are
the LS-8 values, by decision D1 (log entry 1). -/
def Mnemonic.opcode : Mnemonic → Byte
  | .hlt => 0b00000001#8
  | .ldi => 0b10000010#8
  | .prn => 0b01000111#8
  | .add => 0b10100000#8
  | .mul => 0b10100010#8
  | .cmp => 0b10100111#8
  | .and => 0b10101000#8
  | .or => 0b10101010#8
  | .xor => 0b10101011#8
  | .not => 0b01101001#8
  | .push => 0b01000101#8
  | .pop => 0b01000110#8
  | .call => 0b01010000#8
  | .ret => 0b00010001#8
  | .jmp => 0b01010100#8
  | .jeq => 0b01010101#8
  | .jne => 0b01010110#8

/-- The instruction that an opcode byte selects, by all its 8 bits (R63); none for the other 239 bytes (R68). -/
def opcodeMap (op : Byte) : Option Mnemonic :=
  Mnemonic.all.find? fun m => m.opcode == op

/-- The format that the operand table gives each instruction (R64). -/
def Mnemonic.format : Mnemonic → Format
  | .hlt | .ret => .f0
  | .prn | .not | .push | .pop | .call | .jmp | .jeq | .jne => .f1
  | .ldi | .add | .mul | .cmp | .and | .or | .xor => .f2

/-- The format an opcode byte announces by its two high bits; bit 7 is tested first (R61). -/
def formatOf (op : Byte) : Format :=
  if op.getLsbD 7 then .f2 else if op.getLsbD 6 then .f1 else .f0

/-- The length of an instruction of a format, in bytes (R60). -/
def Format.length : Format → Nat
  | .f0 => 1
  | .f1 => 2
  | .f2 => 3

/-- The length in bytes of the instruction that begins with opcode byte `op` (R61). -/
def lengthOf (op : Byte) : Nat := (formatOf op).length

end Sys2Proof
end

