-- ==== Sys2Proof/Machine/Unrecognised.lean ====
section
/-! DEFINITION. The fallback for every opcode byte outside the dispatch table (45_unrecognized.md). -/

namespace Sys2Proof.Machine

/-- R160: `emit_diag(op, pc); pc <- pc + len(op)`. The operand bytes are not used, so they cannot fault (R69). -/
def execUnrecognised (op : Byte) (s : State) : Result :=
  .next ((emitDiag op s.pc s).advance (lengthOf op))

end Sys2Proof.Machine
end

