-- ==== Sys2Proof/WellFormed.lean ====
section
/-! DEFINITION. Which instruction terms the encoding can carry. Every term of a recognised instruction can be
encoded, register operands of 8..255 included (30_encoding.md R69); an unrecognised one needs an opcode byte outside
the table (R68) and exactly the operand bytes of its length (R62). -/

namespace Sys2Proof

/-- The operand bytes present are those the format has (R60, R62). -/
def Format.admits : Format → Option Byte → Option Byte → Bool
  | .f0, none, none => true
  | .f1, some _, none => true
  | .f2, some _, some _ => true
  | _, _, _ => false

/-- The term is the reading of some instruction bytes (R62, R66, R68). -/
def Instr.wellFormed : Instr → Bool
  | .unrecognised op a b => (opcodeMap op).isNone && (formatOf op).admits a b
  | .hlt | .ldi _ _ | .prn _ | .add _ _ | .mul _ _ | .cmp _ _ | .and _ _ | .or _ _ | .xor _ _ | .not _
  | .push _ | .pop _ | .call _ | .ret | .jmp _ | .jeq _ | .jne _ => true

/-- The register operands that an instruction names, in the order A, B (`regops` of R82; R64). LDI's B is an
immediate and an unrecognised opcode names none (R69). -/
def Instr.registerOperands : Instr → List Byte
  | .hlt | .ret | .unrecognised _ _ _ => []
  | .ldi a _ | .prn a | .not a | .push a | .pop a | .call a | .jmp a | .jeq a | .jne a => [a]
  | .add a b | .mul a b | .cmp a b | .and a b | .or a b | .xor a b => [a, b]

/-- The operand that the operand check reports: the first register operand of 8 or more (R174); none when all are
legal. -/
def Instr.badRegister (i : Instr) : Option Byte :=
  i.registerOperands.find? fun r => decide (8 ≤ r.toNat)

end Sys2Proof
end

