-- ==== Sys2Proof/Decode.lean ====
section
/-! DEFINITION. The decoder (30_encoding.md R60 to R63), total on any bytes, and the encoder written from the same
table. Every opcode byte decodes: a byte outside the table is an `unrecognised` instruction (R68); only a byte list
that ends inside an instruction is rejected, by name. -/

namespace Sys2Proof

/-- Why a byte list is no instruction. In the machine neither happens: the fetch wraps mod 256 and always delivers
the bytes it needs (R47). -/
inductive DecodeError where
  /-- There is no opcode byte. -/
  | noOpcode
  /-- The list ends before the last operand byte of the instruction that begins with `op`. -/
  | truncated (op : Byte)
  deriving DecidableEq, Repr

/-- A one-byte instruction (format F0, R60). -/
def decodeF0 (op : Byte) : Instr :=
  match opcodeMap op with
  | some .hlt => .hlt
  | some .ret => .ret
  | _ => .unrecognised op none none

/-- A two-byte instruction (format F1, R60). -/
def decodeF1 (op a : Byte) : Instr :=
  match opcodeMap op with
  | some .prn => .prn a
  | some .not => .not a
  | some .push => .push a
  | some .pop => .pop a
  | some .call => .call a
  | some .jmp => .jmp a
  | some .jeq => .jeq a
  | some .jne => .jne a
  | _ => .unrecognised op (some a) none

/-- A three-byte instruction (format F2, R60). -/
def decodeF2 (op a b : Byte) : Instr :=
  match opcodeMap op with
  | some .ldi => .ldi a b
  | some .add => .add a b
  | some .mul => .mul a b
  | some .cmp => .cmp a b
  | some .and => .and a b
  | some .or => .or a b
  | some .xor => .xor a b
  | _ => .unrecognised op (some a) (some b)

/-- The instruction at the head of a byte list, and the bytes after it. The length comes from the first byte alone
(R61, R70). -/
def decode : List Byte → Except DecodeError (Instr × List Byte)
  | [] => .error .noOpcode
  | op :: rest =>
    match formatOf op, rest with
    | .f0, rest => .ok (decodeF0 op, rest)
    | .f1, a :: rest => .ok (decodeF1 op a, rest)
    | .f2, a :: b :: rest => .ok (decodeF2 op a b, rest)
    | _, _ => .error (.truncated op)

/-- The bytes of an instruction: the opcode, then the operands in the order A, B (R60, R66). -/
def encode : Instr → List Byte
  | .hlt => [Mnemonic.hlt.opcode]
  | .ldi a imm => [Mnemonic.ldi.opcode, a, imm]
  | .prn a => [Mnemonic.prn.opcode, a]
  | .add a b => [Mnemonic.add.opcode, a, b]
  | .mul a b => [Mnemonic.mul.opcode, a, b]
  | .cmp a b => [Mnemonic.cmp.opcode, a, b]
  | .and a b => [Mnemonic.and.opcode, a, b]
  | .or a b => [Mnemonic.or.opcode, a, b]
  | .xor a b => [Mnemonic.xor.opcode, a, b]
  | .not a => [Mnemonic.not.opcode, a]
  | .push a => [Mnemonic.push.opcode, a]
  | .pop a => [Mnemonic.pop.opcode, a]
  | .call a => [Mnemonic.call.opcode, a]
  | .ret => [Mnemonic.ret.opcode]
  | .jmp a => [Mnemonic.jmp.opcode, a]
  | .jeq a => [Mnemonic.jeq.opcode, a]
  | .jne a => [Mnemonic.jne.opcode, a]
  | .unrecognised op a b => op :: (a.toList ++ b.toList)

/-- The length of an instruction in bytes (R61, R67). -/
def Instr.length : Instr → Nat
  | .hlt | .ret => 1
  | .prn _ | .not _ | .push _ | .pop _ | .call _ | .jmp _ | .jeq _ | .jne _ => 2
  | .ldi _ _ | .add _ _ | .mul _ _ | .cmp _ _ | .and _ _ | .or _ _ | .xor _ _ => 3
  | .unrecognised op _ _ => lengthOf op

/-- The three bytes of a table word: byte k is bits 8k+7..8k, the opcode first; bits at or above `nbits` are 0. -/
def tableBytes (nbits w : Nat) : List Byte :=
  [BitVec.ofNat 8 (w % 2 ^ nbits), BitVec.ofNat 8 (w % 2 ^ nbits / 256), BitVec.ofNat 8 (w % 2 ^ nbits / 65536)]

/-- What the decoder reads from an instruction whose bits the opcode table numbers as `w`. -/
def decodeTableWord (nbits w : Nat) : Option Instr :=
  match decode (tableBytes nbits w) with
  | .ok (i, _) => some i
  | .error _ => none

end Sys2Proof
end

