-- ==== Sys2Proof/Machine/Fetch.lean ====
section
/-! DEFINITION. Fetch and decode at pc (30_encoding.md R61, R62; 20_memory.md R44, R47), and placing bytes where the next
fetch reads them. -/

namespace Sys2Proof.Machine

/-- The instruction at pc: the opcode byte, then 0, 1 or 2 operand bytes at the next addresses mod 256, as its length
says (R62). Read anew at every step (R54). -/
def fetchInstr (s : State) : Instr :=
  let op := memRead s.pc s
  match formatOf op with
  | .f0 => decodeF0 op
  | .f1 => decodeF1 op (memRead (s.pc + 1) s)
  | .f2 => decodeF2 op (memRead (s.pc + 1) s) (memRead (s.pc + 2) s)

/-- Store bytes at consecutive addresses mod 256, in list order: a later byte overwrites an earlier one (R195). -/
def storeBytes (a : Byte) : List Byte → State → State
  | [], s => s
  | v :: vs, s => storeBytes (a + 1) vs (memWrite a v s)

end Sys2Proof.Machine
end

