-- ==== Sys2Proof/Machine/Step.lean ====
section
/-! DEFINITION. One step of the state machine (40_engine.md R80 to R82). -/

namespace Sys2Proof.Machine

/-- In RUNNING, fetch, decode and execute one instruction (R81); HALTED and FAULTED have no step (R80). -/
def step (s : State) : Host.Outcome State Fault Refusal :=
  match s.runState with
  | .running => exec (fetchInstr s) s
  | .halted => .fault .halted
  | .faulted => .fault .faulted

/-- The state with a table word's bytes at pc, pc + 1 and pc + 2 mod 256, where a step fetches its instruction. The run
state is left as it is: a stopped CORE has no next fetch. -/
def State.withFetchWord (s : State) (nbits w : Nat) : State :=
  storeBytes s.pc (tableBytes nbits w) s

end Sys2Proof.Machine
end

