-- ==== Sys2Proof/Machine/Image.lean ====
section
/-! DEFINITION. What the host does before and after a run (70_reset_and_hazards.md R190 to R198): the reset event with an
image, the image's text form, and the text of the output stream (42_data_io_halt.md R123). Texts are lists of
characters. -/

namespace Sys2Proof.Machine

/-! ## Reset and image -/

/-- Write image bytes to consecutive addresses from `k`, each taken mod 256; later bytes overwrite earlier ones
(R195). -/
def loadFrom (k : Nat) : List Byte → State → State
  | [], s => s
  | v :: vs, s => loadFrom (k + 1) vs (memWriteAt k v.toNat s)

/-- Place an image from address 0 (R43, R195). -/
def loadImage (image : List Byte) (s : State) : State := loadFrom 0 image s

/-- The reset event: every piece of state is set, then the image is loaded, and whatever the CORE held before is
discarded, HALTED and FAULTED included (R190, R191; D17, log entry 12). -/
def resetEvent (image : List Byte) (_before : State) : State := loadImage image State.reset

/-! ## The image's text form -/

/-- Cut a text at each character that `sep` accepts. -/
def splitText (sep : Char → Bool) : List Char → List (List Char)
  | [] => [[]]
  | c :: cs =>
    match splitText sep cs with
    | [] => [[c]]
    | l :: ls => if sep c then [] :: l :: ls else (c :: l) :: ls

/-- A character of a binary literal (R196). -/
def isBinaryDigit (c : Char) : Bool := c == '0' || c == '1'

/-- The value of a run of binary digits, the first the most significant (R196). -/
def binaryValue (ds : List Char) : Nat := ds.foldl (fun n d => 2 * n + (if d = '1' then 1 else 0)) 0

/-- The byte of one line: the leading run of 0 and 1 read as binary, mod 256, whatever follows it; none for a line that
begins with neither (R196; D14, log entry 11). -/
def imageLine (line : List Char) : Option Byte :=
  match line.takeWhile isBinaryDigit with
  | [] => none
  | ds => some (BitVec.ofNat 8 (binaryValue ds))

/-- The image bytes of a text, one token a line (R72, R196). DESIGN CHOICE: the spec does not say what ends a line; the
model ends one at a line feed alone, so a bare carriage return ends none (log entry 17). -/
def imageOfText (text : List Char) : List Byte :=
  (splitText (fun c => c == '\n') text).filterMap imageLine

/-! ## The text of the output stream -/

/-- A decimal digit, for n below 10. -/
def digitChar (n : Nat) : Char := Char.ofNat (48 + n)

/-- The unsigned decimal digits of a byte, with no sign, leading zero or padding (R123). -/
def decimal (v : Byte) : List Char :=
  let n := v.toNat
  if n < 10 then [digitChar n]
  else if n < 100 then [digitChar (n / 10), digitChar (n % 10)]
  else [digitChar (n / 100), digitChar (n / 10 % 10), digitChar (n % 10)]

/-- One line per printed value, in order (R123; D8, log entry 9). -/
def outputText (lineEnd : List Char) (out : List Byte) : List Char :=
  out.flatMap fun v => decimal v ++ lineEnd

/-- The text the host sees on the output stream (R123, R198). -/
def State.hostText (s : State) : List Char := outputText Config.lineEnd s.out

end Sys2Proof.Machine
end

