-- ==== Sys2Proof/Machine/Assembler.lean ====
section
/-! DEFINITION. The assembler syntax (30_encoding.md R71; D10, log entry 15): the text of an instruction, and the bytes of
a text. It has no effect on what the CORE does. -/

namespace Sys2Proof.Machine

/-- The mnemonic as it is written, in upper case (R71). -/
def mnemonicName : Mnemonic → List Char
  | .hlt => ['H', 'L', 'T']
  | .ldi => ['L', 'D', 'I']
  | .prn => ['P', 'R', 'N']
  | .add => ['A', 'D', 'D']
  | .mul => ['M', 'U', 'L']
  | .cmp => ['C', 'M', 'P']
  | .and => ['A', 'N', 'D']
  | .or => ['O', 'R']
  | .xor => ['X', 'O', 'R']
  | .not => ['N', 'O', 'T']
  | .push => ['P', 'U', 'S', 'H']
  | .pop => ['P', 'O', 'P']
  | .call => ['C', 'A', 'L', 'L']
  | .ret => ['R', 'E', 'T']
  | .jmp => ['J', 'M', 'P']
  | .jeq => ['J', 'E', 'Q']
  | .jne => ['J', 'N', 'E']

/-! ## From an instruction to its text -/

/-- `R0` to `R7`. -/
def registerText (r : Reg) : List Char := ['R', digitChar r.val]

/-- `.byte v`, the form for a byte outside any instruction. -/
def byteText (v : Byte) : List Char := ['.', 'b', 'y', 't', 'e', ' '] ++ decimal v

/-- Bytes that are no instruction with a text of its own, as `.byte` statements on one line. -/
def bytesText : List Byte → List Char
  | [] => []
  | [v] => byteText v
  | v :: vs => byteText v ++ [';', ' '] ++ bytesText vs

/-- A mnemonic with one register operand, or `.byte` statements where the operand names no register. -/
def text1 (m : Mnemonic) (a : Byte) : List Char :=
  match registerOf a with
  | some ra => mnemonicName m ++ [' '] ++ registerText ra
  | none => bytesText [m.opcode, a]

/-- A mnemonic with two register operands, or `.byte` statements where one names no register. -/
def text2 (m : Mnemonic) (a b : Byte) : List Char :=
  match registerOf a, registerOf b with
  | some ra, some rb => mnemonicName m ++ [' '] ++ registerText ra ++ [','] ++ registerText rb
  | _, _ => bytesText [m.opcode, a, b]

/-- The assembly text of an instruction (R71). -/
def asmText : Instr → List Char
  | .hlt => mnemonicName .hlt
  | .ret => mnemonicName .ret
  | .ldi a imm =>
    match registerOf a with
    | some ra => mnemonicName .ldi ++ [' '] ++ registerText ra ++ [','] ++ decimal imm
    | none => bytesText [Mnemonic.ldi.opcode, a, imm]
  | .prn a => text1 .prn a
  | .not a => text1 .not a
  | .push a => text1 .push a
  | .pop a => text1 .pop a
  | .call a => text1 .call a
  | .jmp a => text1 .jmp a
  | .jeq a => text1 .jeq a
  | .jne a => text1 .jne a
  | .add a b => text2 .add a b
  | .mul a b => text2 .mul a b
  | .cmp a b => text2 .cmp a b
  | .and a b => text2 .and a b
  | .or a b => text2 .or a b
  | .xor a b => text2 .xor a b
  | .unrecognised op a b => bytesText (op :: (a.toList ++ b.toList))

/-! ## From a text to its bytes -/

/-- A token without the spaces around it. -/
def trim (t : List Char) : List Char :=
  let dropSpaces := List.dropWhile fun c => c == ' '
  (dropSpaces (dropSpaces t).reverse).reverse

/-- The value of one digit in a base up to 16. -/
def digitValue (base : Nat) (c : Char) : Option Nat :=
  let n := c.toNat
  let v := if 48 ≤ n ∧ n ≤ 57 then n - 48
    else if 65 ≤ n ∧ n ≤ 70 then n - 55
    else if 97 ≤ n ∧ n ≤ 102 then n - 87
    else base
  if v < base then some v else none

/-- The value of a run of digits, read on from `acc`; none where a character is no digit of the base. -/
def digitsValue (base acc : Nat) : List Char → Option Nat
  | [] => some acc
  | c :: cs =>
    match digitValue base c with
    | some v => digitsValue base (base * acc + v) cs
    | none => none

/-- A nonempty run of digits whose value is in 0..255. -/
def byteOfDigits (base : Nat) (ds : List Char) : Option Byte :=
  match ds, digitsValue base 0 ds with
  | _ :: _, some n => if n < 256 then some (BitVec.ofNat 8 n) else none
  | _, _ => none

/-- An immediate: decimal, `0x` hex or `0b` binary, in 0..255 (R71). -/
def parseNumber : List Char → Option Byte
  | '0' :: 'x' :: ds => byteOfDigits 16 ds
  | '0' :: 'b' :: ds => byteOfDigits 2 ds
  | ds => byteOfDigits 10 ds

/-- A register operand: `R0` to `R7`, or `SP` for `R7` (R71). -/
def parseRegister : List Char → Option Byte
  | ['S', 'P'] => some Reg.sp.toByte
  | ['R', c] =>
    match digitValue 8 c with
    | some n => some (BitVec.ofNat 8 n)
    | none => none
  | _ => none

/-- The operand bytes of an instruction, from its operand tokens (R64, R71). -/
def parseOperands (m : Mnemonic) (operands : List (List Char)) : Option (List Byte) :=
  match m.format, operands with
  | .f0, [] => some []
  | .f1, [a] => (parseRegister a).map fun ra => [ra]
  | .f2, [a, b] =>
    match parseRegister a, (if m = .ldi then parseNumber b else parseRegister b) with
    | some ra, some vb => some [ra, vb]
    | _, _ => none
  | _, _ => none

/-- The bytes of one statement: a mnemonic, a space, and operands separated by commas; or `.byte v`; nothing for a blank
statement. None where the text has no such form. -/
def assembleStatement (text : List Char) : Option (List Byte) :=
  let t := trim text
  let word := t.takeWhile fun c => c != ' '
  let rest := trim (t.dropWhile fun c => c != ' ')
  let operands := if rest = [] then [] else (splitText (fun c => c == ',') rest).map trim
  if t = [] then some []
  else if word = ['.', 'b', 'y', 't', 'e'] then
    match operands with
    | [v] => (parseNumber v).map fun n => [n]
    | _ => none
  else
    match Mnemonic.all.find? fun m => mnemonicName m == word with
    | some m => (parseOperands m operands).map fun bs => m.opcode :: bs
    | none => none

/-- The bytes of a list of statements, in order; none where one has no form. -/
def assembleAll : List (List Char) → Option (List Byte)
  | [] => some []
  | t :: ts =>
    match assembleStatement t, assembleAll ts with
    | some bs, some more => some (bs ++ more)
    | _, _ => none

/-- The bytes of a program text: statements separated by `;` (R71). DESIGN CHOICE: a line feed separates them too (log
entry 15). -/
def assemble (text : List Char) : Option (List Byte) :=
  assembleAll (splitText (fun c => c == ';' || c == '\n') text)

end Sys2Proof.Machine
end

