-- ==== Sys2Proof/Safety.lean ====
section
/-! DEFINITION. The terms in which claims are stated: the invariant of the state, runs, and the registers that an
instruction reads and writes. -/

namespace Sys2Proof.Machine

/-! ## The invariant -/

/-- FL holds nothing but E: the other bits read 0 (R27, R28). -/
abbrev State.flagsReserved (s : State) : Prop := ∀ k : Fin 8, k ≠ Config.flEBit → s.fl.getLsbD k.val = false

/-- Every report names an unrecognised opcode (R161, R176). -/
abbrev State.reportsUnrecognised (s : State) : Prop := ∀ r ∈ s.diag, opcodeMap r.opcode = none

/-- In FAULTED, and only there, a fault is recorded: the address is pc, and the operand byte is the first bad register
operand of the instruction that still stands there (R174, R177). -/
def State.faultPrecise (s : State) : Prop :=
  match s.runState, s.faultRecord with
  | .faulted, some r => r.addr = s.pc ∧ (fetchInstr s).badRegister = some r.index
  | .faulted, none => False
  | .running, r | .halted, r => r = none

/-- What holds of every state a run reaches. -/
structure State.Inv (s : State) : Prop where
  /-- Memory keeps its canonical form. -/
  memory : s.mem.wf
  /-- FL's bits other than E are 0. -/
  flags : s.flagsReserved
  /-- `diag` holds only reports of unrecognised opcodes. -/
  reports : s.reportsUnrecognised
  /-- A fault is recorded in FAULTED only, and precisely. -/
  fault : s.faultPrecise

/-! ## What a step leaves unchanged -/

/-- Every register but those listed keeps its value. -/
def KeepsRegisters (written : List Reg) (s t : State) : Prop := ∀ r, r ∉ written → t.reg r = s.reg r

/-- Every cell but those listed keeps its byte. -/
def KeepsMemory (written : List Byte) (s t : State) : Prop := ∀ a, a ∉ written → memRead a t = memRead a s

/-- Neither output stream changes. -/
def KeepsOutputs (s t : State) : Prop := t.out = s.out ∧ t.diag = s.diag

/-- The run state and the fault record do not change. -/
def KeepsRunState (s t : State) : Prop := t.runState = s.runState ∧ t.faultRecord = s.faultRecord

/-- `pc <- pc + len`, mod 256 (R26). -/
def Advances (len : Nat) (s t : State) : Prop := t.pc.toNat = (s.pc.toNat + len) % 256

/-- The frame of an instruction that writes registers alone and advances by its length. -/
structure RegisterFrame (written : List Reg) (len : Nat) (s t : State) : Prop where
  registers : KeepsRegisters written s t
  flags : t.fl = s.fl
  memory : KeepsMemory [] s t
  outputs : KeepsOutputs s t
  runState : KeepsRunState s t
  advances : Advances len s t

/-! ## Events (R175) -/

/-- The two events a step can produce beside its normal effect (R175). -/
inductive Event where
  /-- DIAG_UNKNOWN_OPCODE: the opcode byte and its address; the run continues. -/
  | diagUnknownOpcode (op addr : Byte)
  /-- FAULT_BAD_REGISTER_INDEX: the operand byte and the instruction's address; the state becomes FAULTED. -/
  | faultBadRegisterIndex (index addr : Byte)
  deriving DecidableEq, Repr

/-- The labels of R175; they appear nowhere in the CORE's state. -/
def Event.code : Event → Nat
  | .diagUnknownOpcode _ _ => 1
  | .faultBadRegisterIndex _ _ => 2

/-- The event that executing `i` at address `addr` produces: at most one (R176). -/
def eventOf (addr : Byte) (i : Instr) : Option Event :=
  match i, i.badRegister with
  | .unrecognised op _ _, _ => some (.diagUnknownOpcode op addr)
  | _, some r => some (.faultBadRegisterIndex r addr)
  | _, none => none

/-! ## Runs -/

/-- `t` is reached from `s` by zero or more steps. -/
inductive Reaches : State → State → Prop where
  | refl (s : State) : Reaches s s
  | tail {s t u : State} : Reaches s t → step t = .next u → Reaches s u

/-- A safe run: it never ends in FAULTED (R85). -/
def SafeFrom (s : State) : Prop := ∀ t, Reaches s t → t.runState ≠ .faulted

/-! ## The registers of an instruction (R21) -/

/-- The registers that an instruction with legal operands reads; JEQ and JNE read `x[A]` only if the jump is taken,
which `e`, the equal bit, decides. -/
def regsRead (e : Bool) : Instr → List Reg
  | .hlt | .ldi _ _ | .unrecognised _ _ _ => []
  | .prn a | .not a | .jmp a => (registerOf a).toList
  | .add a b | .mul a b | .and a b | .or a b | .xor a b | .cmp a b => (registerOf a).toList ++ (registerOf b).toList
  | .push a | .call a => Reg.sp :: (registerOf a).toList
  | .pop _ | .ret => [Reg.sp]
  | .jeq a => if e then (registerOf a).toList else []
  | .jne a => if e then [] else (registerOf a).toList

/-- The registers that an instruction with legal operands writes. -/
def regsWritten : Instr → List Reg
  | .hlt | .prn _ | .cmp _ _ | .jmp _ | .jeq _ | .jne _ | .unrecognised _ _ _ => []
  | .ldi a _ | .add a _ | .mul a _ | .and a _ | .or a _ | .xor a _ | .not a => (registerOf a).toList
  | .push _ | .call _ | .ret => [Reg.sp]
  | .pop a => (registerOf a).toList ++ [Reg.sp]

end Sys2Proof.Machine
end

