-- ==== Sys2Proof/Certificates/Slice0/Obligations.lean ====
section
/-! DEFINITION. The statements about the CORE that the provers settle. Each docstring names the rule of spec/ that it
formalises; where a clause rests on a decision that the spec marks as its own, or on the model's choice, the docstring
names it. A register operand is written `r.toByte` for r : Reg, which is every legal operand byte. -/

open Sys2Proof Sys2Proof.Machine

/-! ## Reset and image -/

/-- R23, R25: with any image loaded, every general register is 0 but x[7] = 0xF4, and pc is 0. -/
def Obligations.ResetRegistersAndPc : Prop :=
  ∀ image : List Byte,
    (∀ r : Reg, (loadImage image State.reset).reg r = if r = 7 then 0xF4#8 else 0#8) ∧
      (loadImage image State.reset).pc = 0#8

/-- R43, R195: byte k of the image is at k mod 256 unless a later byte goes there too, and a cell that the image does not
cover holds 0. -/
def Obligations.ImageBytesPlaced : Prop :=
  ∀ image : List Byte,
    (∀ (k : Nat) (hk : k < image.length), (∀ j, k < j → j < image.length → j % 256 ≠ k % 256) →
      memReadAt (k : Int) (loadImage image State.reset) = image[k]) ∧
    (∀ a : Byte, (∀ k, k < image.length → k % 256 ≠ a.toNat) → memRead a (loadImage image State.reset) = 0#8)

/-- R190, whose single reset event is the spec's decision D17 (log entry 12): whatever the CORE held before, every general
register is 0 but x[7] = 0xF4, pc and FL are 0, the run state is RUNNING, both streams are empty, no fault is recorded (log
entry 4), and the state, memory included, is that of the image loaded into the reset state, whose cells
`ImageBytesPlaced` gives. -/
def Obligations.ResetEventDiscardsEarlierState : Prop :=
  ∀ (image : List Byte) (before : State),
    (∀ r : Reg, (resetEvent image before).reg r = if r = 7 then 0xF4#8 else 0#8) ∧
      (resetEvent image before).pc = 0#8 ∧ (resetEvent image before).fl = 0#8 ∧
      (resetEvent image before).runState = .running ∧ (resetEvent image before).out = [] ∧
      (resetEvent image before).diag = [] ∧ (resetEvent image before).faultRecord = none ∧
      resetEvent image before = loadImage image State.reset

/-- R196 as decision D14 reads it (log entry 11): a line that begins with a run of binary digits, of any length from one
on, is the run's value mod 256 (`Nat.ofDigits` takes the least significant digit first), whatever text follows that does
not go on with a binary digit; a line that begins with no binary digit is skipped and consumes no address; and the lines
of a text give their bytes in order. That a line ends at a line feed alone is the model's choice (log entry 17). -/
def Obligations.ImageLineReadsBinaryLiteral : Prop :=
  (∀ (bits : List Bool) (rest : List Char), bits ≠ [] → (∀ c, rest.head? = some c → isBinaryDigit c = false) →
    imageLine (bits.map (fun b => if b then '1' else '0') ++ rest) =
      some (BitVec.ofNat 8 (Nat.ofDigits 2 (bits.reverse.map Bool.toNat)))) ∧
  (∀ line : List Char, (∀ c, line.head? = some c → isBinaryDigit c = false) → imageLine line = none) ∧
  (∀ line text : List Char, '\n' ∉ line →
    imageOfText line = (imageLine line).toList ∧
      imageOfText (line ++ '\n' :: text) = (imageLine line).toList ++ imageOfText text)

/-! ## Memory -/

/-- R41: read and write take any integer address mod 256; cell 256 is cell 0 and cell -1 is cell 255; the value stored is
v mod 256 (R11). -/
def Obligations.MemoryInterfaceWraps : Prop :=
  ∀ (a b v : Int) (s : State),
    memReadAt a s = memReadAt (a % 256) s ∧ memReadAt 256 s = memReadAt 0 s ∧ memReadAt (-1) s = memReadAt 255 s ∧
      (b % 256 = a % 256 → ((memReadAt b (memWriteAt a v s)).toNat : Int) = v % 256) ∧
      (b % 256 ≠ a % 256 → memReadAt b (memWriteAt a v s) = memReadAt b s)

/-- R42: after any sequence of writes, a read returns the value of the most recent write to that cell, or what the cell
held before if there was none; the writes change nothing but memory. A read is a function of the state, so it changes
none. -/
def Obligations.ReadReturnsLatestWrite : Prop :=
  ∀ (writes : List (Byte × Byte)) (a : Byte) (s : State),
    memRead a (writes.foldl (fun t w => memWrite w.1 w.2 t) s) =
        (((writes.filter fun w => w.1 == a).getLast?).map Prod.snd).getD (memRead a s) ∧
      ∃ m : Memory, writes.foldl (fun t w => memWrite w.1 w.2 t) s = { s with mem := m }

/-- The model's representation (log entry 13): two canonical memories in which every cell reads the same are equal. -/
def Obligations.CanonicalMemoriesWithEqualReadsAreEqual : Prop :=
  ∀ m n : Memory, m.wf → n.wf → (∀ a : Byte, m.read a.toNat = n.read a.toNat) → m = n

/-! ## Encoding -/

/-- R61, with the byte values of D1 for its last sentence (log entry 1): the length by the value of the opcode byte, and
no recognised opcode has both high bits set. -/
def Obligations.LengthFromTopTwoBits : Prop :=
  ∀ op : Byte,
    (128 ≤ op.toNat → lengthOf op = 3) ∧ (64 ≤ op.toNat → op.toNat < 128 → lengthOf op = 2) ∧
      (op.toNat < 64 → lengthOf op = 1) ∧ (192 ≤ op.toNat → opcodeMap op = none)

/-- R7: what the decoder takes from a byte list is one opcode byte and 0, 1 or 2 operand bytes. -/
def Obligations.InstructionIsOneToThreeBytes : Prop :=
  ∀ (bytes : List Byte) (i : Instr) (rest : List Byte), decode bytes = .ok (i, rest) →
    ∃ (op : Byte) (operands : List Byte), bytes = op :: operands ++ rest ∧ operands.length ≤ 2 ∧
      i.length = 1 + operands.length

/-- R60, R62, R66: decoding the encoding of any well-formed instruction gives it back with every operand at every value,
and leaves the bytes after it. The byte values of fourteen opcodes are D1's (log entry 1). -/
def Obligations.DecodeOfEncodeIsIdentity : Prop :=
  ∀ (i : Instr) (rest : List Byte), i.wellFormed = true → decode (encode i ++ rest) = .ok (i, rest)

/-- R60, R62, R66, R68: what decodes is well-formed, and its encoding is the bytes it was read from. -/
def Obligations.EncodeOfDecodeIsIdentity : Prop :=
  ∀ (bytes : List Byte) (i : Instr) (rest : List Byte), decode bytes = .ok (i, rest) →
    i.wellFormed = true ∧ encode i ++ rest = bytes

/-- R70: the length comes from the first byte alone, a byte stream decodes one way from its start, and it may decode
differently from a different start. -/
def Obligations.ByteStreamDecodesOneWay : Prop :=
  (∀ (op : Byte) (r r' u u' : List Byte) (i j : Instr),
    decode (op :: r) = .ok (i, u) → decode (op :: r') = .ok (j, u') → i.length = j.length) ∧
  (∀ (i j : Instr) (r r' : List Byte), i.wellFormed = true → j.wellFormed = true →
    encode i ++ r = encode j ++ r' → i = j ∧ r = r') ∧
  (∃ (op : Byte) (r u u' : List Byte) (i j : Instr),
    decode (op :: r) = .ok (i, u) ∧ decode r = .ok (j, u') ∧ i ≠ j ∧ u = u')

/-- R62, R68: every opcode byte with its operand bytes present decodes; a list that ends earlier is rejected by
name. -/
def Obligations.DecoderIsTotal : Prop :=
  decode [] = .error .noOpcode ∧
    ∀ (op : Byte) (rest : List Byte),
      (lengthOf op ≤ rest.length + 1 → ∃ (i : Instr) (u : List Byte), decode (op :: rest) = .ok (i, u)) ∧
        (rest.length + 1 < lengthOf op → decode (op :: rest) = .error (.truncated op))

/-- R66, whose byte values but LDI's, PRN's and HLT's are D1's (log entry 1): the word of each of the 17 rows, bit by bit,
with every operand byte in its place, and an unrecognised word. -/
def Obligations.SampleWordsDecode : Prop :=
  ∀ a b : Byte,
    decode [0b00000001, a] = .ok (.hlt, [a]) ∧
    decode [0b10000010, a, b] = .ok (.ldi a b, []) ∧
    decode [0b01000111, a, b] = .ok (.prn a, [b]) ∧
    decode [0b10100000, a, b] = .ok (.add a b, []) ∧
    decode [0b10100010, a, b] = .ok (.mul a b, []) ∧
    decode [0b10100111, a, b] = .ok (.cmp a b, []) ∧
    decode [0b10101000, a, b] = .ok (.and a b, []) ∧
    decode [0b10101010, a, b] = .ok (.or a b, []) ∧
    decode [0b10101011, a, b] = .ok (.xor a b, []) ∧
    decode [0b01101001, a, b] = .ok (.not a, [b]) ∧
    decode [0b01000101, a, b] = .ok (.push a, [b]) ∧
    decode [0b01000110, a, b] = .ok (.pop a, [b]) ∧
    decode [0b01010000, a, b] = .ok (.call a, [b]) ∧
    decode [0b00010001, a] = .ok (.ret, [a]) ∧
    decode [0b01010100, a, b] = .ok (.jmp a, [b]) ∧
    decode [0b01010101, a, b] = .ok (.jeq a, [b]) ∧
    decode [0b01010110, a, b] = .ok (.jne a, [b]) ∧
    decode [0b11000000, a, b] = .ok (.unrecognised 0b11000000 (some a) (some b), [])

/-- R66, R68, with D1's byte values (log entry 1): exactly the 17 bytes of the map are recognised, and any other byte
decodes to an unrecognised instruction. -/
def Obligations.OtherOpcodesAreUnrecognised : Prop :=
  ∀ op : Byte,
    (opcodeMap op = none ↔ op ∉ [0x01#8, 0x82#8, 0x47#8, 0xA0#8, 0xA2#8, 0xA7#8, 0xA8#8, 0xAA#8, 0xAB#8, 0x69#8,
      0x45#8, 0x46#8, 0x50#8, 0x11#8, 0x54#8, 0x55#8, 0x56#8]) ∧
    (opcodeMap op = none → ∀ a b : Byte, ∃ (x y : Option Byte) (rest : List Byte),
      decode [op, a, b] = .ok (.unrecognised op x y, rest))

/-- R71 as decision D10 fixes it (log entry 15): the text of every well-formed instruction assembles to its bytes. -/
def Obligations.AssemblyTextAssemblesToEncoding : Prop :=
  ∀ i : Instr, i.wellFormed = true → assemble (asmText i) = some (encode i)

/-! ## The step -/

/-- R62, R81, R47: in RUNNING, where the bytes at pc, pc + 1 and pc + 2 (mod 256) decode to a well-formed instruction, a
step is the execution of it. The step adds nothing around the execution. -/
def Obligations.StepExecutesDecodedInstruction : Prop :=
  ∀ (s : State) (i : Instr) (rest : List Byte), s.runState = .running → i.wellFormed = true →
    decode [memReadAt s.pc.toNat s, memReadAt (s.pc.toNat + 1) s, memReadAt (s.pc.toNat + 2) s] = .ok (i, rest) →
    step s = exec i s

/-- R80, R86; FAULTED is the spec's decision D4, and that a stopped CORE answers a named fault is the model's choice
(log entry 5): a step has a next state exactly in RUNNING. -/
def Obligations.StepHasNextStateExactlyInRunning : Prop :=
  ∀ s : State,
    (s.runState = .running → ∃ t, step s = .next t) ∧ (s.runState = .halted → step s = .fault .halted) ∧
      (s.runState = .faulted → step s = .fault .faulted)

/-- R84: HALTED is reached only via HLT, and a CORE in HALTED executes no further step. -/
def Obligations.HaltedIsTerminalAndReachedOnlyByHlt : Prop :=
  ∀ s t : State,
    (step s = .next t → t.runState = .halted → fetchInstr s = .hlt) ∧ (s.runState = .halted → step s ≠ .next t)

/-! ## ALU instructions -/

/-- R101 (pseudocode and flags): ADD writes the exact sum mod 256 to x[A] and changes no other state but pc. -/
def Obligations.AddWritesSumModulo256 : Prop :=
  ∀ (ra rb : Reg) (s : State), ∃ t, exec (.add ra.toByte rb.toByte) s = .next t ∧
    (t.reg ra).toNat = ((s.reg ra).toNat + (s.reg rb).toNat) % 256 ∧ RegisterFrame [ra] 3 s t

/-- R102 (pseudocode and flags): MUL writes the low 8 bits of the exact product to x[A] and changes no other state but
pc. -/
def Obligations.MulWritesProductModulo256 : Prop :=
  ∀ (ra rb : Reg) (s : State), ∃ t, exec (.mul ra.toByte rb.toByte) s = .next t ∧
    (t.reg ra).toNat = ((s.reg ra).toNat * (s.reg rb).toNat) % 256 ∧ RegisterFrame [ra] 3 s t

/-- R103, R104, R105 (pseudocode and flags; the correct semantics is the spec's decision D15, log entry 10): AND, OR and
XOR act on each bit and change no other state but pc. -/
def Obligations.AndOrXorActBitwise : Prop :=
  ∀ (ra rb : Reg) (s : State),
    (∃ t, exec (.and ra.toByte rb.toByte) s = .next t ∧
      (∀ k : Fin 8, (t.reg ra).getLsbD k = ((s.reg ra).getLsbD k && (s.reg rb).getLsbD k)) ∧
      RegisterFrame [ra] 3 s t) ∧
    (∃ t, exec (.or ra.toByte rb.toByte) s = .next t ∧
      (∀ k : Fin 8, (t.reg ra).getLsbD k = ((s.reg ra).getLsbD k || (s.reg rb).getLsbD k)) ∧
      RegisterFrame [ra] 3 s t) ∧
    (∃ t, exec (.xor ra.toByte rb.toByte) s = .next t ∧
      (∀ k : Fin 8, (t.reg ra).getLsbD k = ((s.reg ra).getLsbD k ^^ (s.reg rb).getLsbD k)) ∧
      RegisterFrame [ra] 3 s t)

/-- R106 (pseudocode and flags; D15, log entry 10): NOT writes 255 - x[A] and changes no other state but pc, which
advances by 2. -/
def Obligations.NotWritesComplement : Prop :=
  ∀ (ra : Reg) (s : State), ∃ t, exec (.not ra.toByte) s = .next t ∧
    (t.reg ra).toNat = 255 - (s.reg ra).toNat ∧ RegisterFrame [ra] 2 s t

/-- R107 (pseudocode and flags; that E is bit 0 is the spec's decision D2, log entry 2): CMP writes 0x01 or 0x00 to FL
and changes no register, cell or stream. -/
def Obligations.CmpWritesEqualityToFlags : Prop :=
  ∀ (ra rb : Reg) (s : State), ∃ t, exec (.cmp ra.toByte rb.toByte) s = .next t ∧
    t.fl = (if s.reg ra = s.reg rb then 0x01#8 else 0x00#8) ∧ KeepsRegisters [] s t ∧ KeepsMemory [] s t ∧
    KeepsOutputs s t ∧ KeepsRunState s t ∧ Advances 3 s t

/-! ## HLT, LDI, PRN -/

/-- R120 (pseudocode but pc): HLT enters HALTED; registers, FL, memory and outputs keep their values. What pc holds
afterwards is not stated (U2, log entry 7). -/
def Obligations.HltEntersHalted : Prop :=
  ∀ s : State, ∃ t, exec .hlt s = .next t ∧ t.runState = .halted ∧ KeepsRegisters [] s t ∧ t.fl = s.fl ∧
    KeepsMemory [] s t ∧ KeepsOutputs s t ∧ t.faultRecord = s.faultRecord

/-- R121 (pseudocode and flags): LDI writes the immediate byte unchanged, for every byte, R7 included. -/
def Obligations.LdiWritesImmediate : Prop :=
  ∀ (ra : Reg) (imm : Byte) (s : State), ∃ t, exec (.ldi ra.toByte imm) s = .next t ∧ t.reg ra = imm ∧
    RegisterFrame [ra] 3 s t

/-- R122 (pseudocode and flags; that the stream never blocks is D8): PRN appends x[A] to `out` and changes no register,
flag or cell. -/
def Obligations.PrnAppendsRegisterToOutput : Prop :=
  ∀ (ra : Reg) (s : State), ∃ t, exec (.prn ra.toByte) s = .next t ∧ t.out = s.out ++ [s.reg ra] ∧
    t.diag = s.diag ∧ KeepsRegisters [] s t ∧ t.fl = s.fl ∧ KeepsMemory [] s t ∧ KeepsRunState s t ∧ Advances 2 s t

/-- R123, whose exact text is the spec's decision D8 (log entry 9): each printed value is a line of its unsigned decimal
digits, at least one and with no leading zero, so that 0 is `0`; then a line feed; in the order of printing. -/
def Obligations.OutputTextIsOneDecimalLinePerValue : Prop :=
  State.reset.hostText = [] ∧
  (∀ (s : State) (v : Byte), (emitOut v s).hostText = s.hostText ++ decimal v ++ ['\n']) ∧
  (∀ v : Byte, decimal v ≠ [] ∧ (∀ c ∈ decimal v, '0' ≤ c ∧ c ≤ '9') ∧
    digitsValue 10 0 (decimal v) = some v.toNat ∧ ((decimal v).head? = some '0' → decimal v = ['0']))

/-! ## Stack instructions -/

/-- R131 (pseudocode and flags; the value for R7 is D5's, log entry 6): PUSH stores x[A] at SP - 1 mod 256, where SP then
points; with R7 the stored byte is the decremented SP. -/
def Obligations.PushStoresBelowStackPointer : Prop :=
  ∀ (ra : Reg) (s : State), ∃ t, exec (.push ra.toByte) s = .next t ∧
    t.sp.toNat = (s.sp.toNat + 255) % 256 ∧ memRead t.sp t = (if ra = 7 then t.sp else s.reg ra) ∧
    KeepsRegisters [7] s t ∧ KeepsMemory [t.sp] s t ∧ t.fl = s.fl ∧ KeepsOutputs s t ∧ KeepsRunState s t ∧
    Advances 2 s t

/-- R132 (pseudocode and flags; the value for R7 is D5's, log entry 6): POP loads the byte at SP and then increments SP
mod 256; with R7, SP ends at the loaded byte plus 1. No cell changes. -/
def Obligations.PopLoadsAtStackPointer : Prop :=
  ∀ (ra : Reg) (s : State), ∃ t, exec (.pop ra.toByte) s = .next t ∧
    (ra ≠ 7 → t.reg ra = memRead s.sp s ∧ t.sp.toNat = (s.sp.toNat + 1) % 256) ∧
    (ra = 7 → t.sp.toNat = ((memRead s.sp s).toNat + 1) % 256) ∧
    KeepsRegisters [ra, 7] s t ∧ KeepsMemory [] s t ∧ t.fl = s.fl ∧ KeepsOutputs s t ∧ KeepsRunState s t ∧
    Advances 2 s t

/-- R133, which the spec derives from R131 and R132 (for r = 7 under D5, log entry 6): PUSH Rr followed by POP Rr restores
every register, SP included, and changes only the cell below SP. -/
def Obligations.PushThenPopRestoresRegister : Prop :=
  ∀ (r : Reg) (s : State), ∃ t u, exec (.push r.toByte) s = .next t ∧ exec (.pop r.toByte) t = .next u ∧
    KeepsRegisters [] s u ∧ KeepsMemory [s.sp - 1] s u ∧
    memRead (s.sp - 1) u = (if r = 7 then s.sp - 1 else s.reg r) ∧ u.fl = s.fl ∧ KeepsOutputs s u ∧
    KeepsRunState s u ∧ Advances 4 s u

/-- R134, which the spec derives from R131 and R132 (R7 under D5, log entry 6): PUSH Rs, POP Rd copies x[s] to x[d] and
leaves SP unchanged; with s = 7 it copies SP - 1; with d = 7 SP ends at the copied value plus 1. -/
def Obligations.PushThenPopCopiesRegister : Prop :=
  ∀ (src dst : Reg) (s : State), ∃ t u, exec (.push src.toByte) s = .next t ∧ exec (.pop dst.toByte) t = .next u ∧
    (dst ≠ 7 → u.reg dst = (if src = 7 then s.sp - 1 else s.reg src) ∧ u.sp = s.sp) ∧
    (dst = 7 → u.sp = (if src = 7 then s.sp - 1 else s.reg src) + 1) ∧
    KeepsRegisters [dst, 7] s u ∧ KeepsMemory [s.sp - 1] s u

/-! ## Control transfer -/

/-- R141 (pseudocode and flags; C1; the target for R7 is D5's, log entry 6): CALL stores pc + 2 mod 256 at SP - 1 and
jumps to x[A]; with R7 the target is the decremented SP. -/
def Obligations.CallStoresReturnAddress : Prop :=
  ∀ (ra : Reg) (s : State), ∃ t, exec (.call ra.toByte) s = .next t ∧
    t.sp.toNat = (s.sp.toNat + 255) % 256 ∧ (memRead t.sp t).toNat = (s.pc.toNat + 2) % 256 ∧
    t.pc = (if ra = 7 then t.sp else s.reg ra) ∧
    KeepsRegisters [7] s t ∧ KeepsMemory [t.sp] s t ∧ t.fl = s.fl ∧ KeepsOutputs s t ∧ KeepsRunState s t

/-- R142 (pseudocode and flags): RET jumps to the byte at SP and increments SP mod 256; no cell changes. -/
def Obligations.RetJumpsToStackedByte : Prop :=
  ∀ s : State, ∃ t, exec .ret s = .next t ∧
    t.pc = memRead s.sp s ∧ t.sp.toNat = (s.sp.toNat + 1) % 256 ∧
    KeepsRegisters [7] s t ∧ KeepsMemory [] s t ∧ t.fl = s.fl ∧ KeepsOutputs s t ∧ KeepsRunState s t

/-- R142, last corner case, which the spec derives; C1: a RET at which SP and the byte there are as the CALL left them
returns to the address right after the CALL and restores SP. -/
def Obligations.RetAfterCallReturnsBehindCall : Prop :=
  ∀ (ra : Reg) (s t u : State), exec (.call ra.toByte) s = .next t → u.sp = t.sp →
    memRead u.sp u = memRead t.sp t →
    ∃ v, exec .ret u = .next v ∧ v.pc.toNat = (s.pc.toNat + 2) % 256 ∧ v.sp = s.sp

/-- R143 (pseudocode and flags): JMP writes pc with x[A] and changes nothing else. -/
def Obligations.JmpWritesOnlyPc : Prop :=
  ∀ (ra : Reg) (s : State), ∃ t, exec (.jmp ra.toByte) s = .next t ∧ t.pc = s.reg ra ∧
    KeepsRegisters [] s t ∧ t.fl = s.fl ∧ KeepsMemory [] s t ∧ KeepsOutputs s t ∧ KeepsRunState s t

/-- R144, R145 (pseudocode and flags; that E is bit 0 is D2, log entry 2): JEQ jumps to x[A] when bit 0 of FL is 1, JNE
when it is 0, whatever the other bits hold (C5); else each advances by 2; nothing but pc changes. -/
def Obligations.ConditionalJumpsTestEqualBit : Prop :=
  ∀ (ra : Reg) (s : State), ∃ t u, exec (.jeq ra.toByte) s = .next t ∧ exec (.jne ra.toByte) s = .next u ∧
    (s.fl.getLsbD 0 = true → t.pc = s.reg ra ∧ Advances 2 s u) ∧
    (s.fl.getLsbD 0 = false → u.pc = s.reg ra ∧ Advances 2 s t) ∧
    KeepsRegisters [] s t ∧ t.fl = s.fl ∧ KeepsMemory [] s t ∧ KeepsOutputs s t ∧ KeepsRunState s t ∧
    KeepsRegisters [] s u ∧ u.fl = s.fl ∧ KeepsMemory [] s u ∧ KeepsOutputs s u ∧ KeepsRunState s u

/-- R107, R144, R145: after CMP, JEQ jumps exactly if the compared registers were equal, and JNE exactly if they were
not. It holds wherever E stands in FL (D2). -/
def Obligations.BranchAfterCompareFollowsEquality : Prop :=
  ∀ (ra rb rc : Reg) (s t : State), exec (.cmp ra.toByte rb.toByte) s = .next t →
    ∃ u v, exec (.jeq rc.toByte) t = .next u ∧ exec (.jne rc.toByte) t = .next v ∧
      (s.reg ra = s.reg rb → u.pc = s.reg rc ∧ v.pc.toNat = (s.pc.toNat + 5) % 256) ∧
      (s.reg ra ≠ s.reg rb → v.pc = s.reg rc ∧ u.pc.toNat = (s.pc.toNat + 5) % 256)

/-- R83: the default length, the explicit jump without default advance, or the conditional of the two. CALL R7's target,
which D5 fixes, is in `CallStoresReturnAddress`. -/
def Obligations.DefaultAdvanceOrExplicitJump : Prop :=
  ∀ (r q : Reg) (imm op : Byte) (x y : Option Byte) (s t : State),
    (∀ i ∈ [Instr.ldi r.toByte imm, .prn r.toByte, .add r.toByte q.toByte, .mul r.toByte q.toByte,
        .cmp r.toByte q.toByte, .and r.toByte q.toByte, .or r.toByte q.toByte, .xor r.toByte q.toByte, .not r.toByte,
        .push r.toByte, .pop r.toByte, .unrecognised op x y],
      exec i s = .next t → Advances i.length s t) ∧
    (exec (.call r.toByte) s = .next t → r ≠ 7 → t.pc = s.reg r) ∧
    (exec .ret s = .next t → t.pc = memRead s.sp s) ∧
    (exec (.jmp r.toByte) s = .next t → t.pc = s.reg r) ∧
    (exec (.jeq r.toByte) s = .next t → if s.equal then t.pc = s.reg r else Advances 2 s t) ∧
    (exec (.jne r.toByte) s = .next t → if s.equal then Advances 2 s t else t.pc = s.reg r)

/-! ## Unrecognised opcodes and faults -/

/-- R160; the report's channel and content are the spec's decision D7 (log entry 8): an unrecognised opcode is reported
with its address and skipped by its length, and nothing else changes. -/
def Obligations.UnrecognisedOpcodeIsReportedAndSkipped : Prop :=
  ∀ (op : Byte) (x y : Option Byte) (s : State), ∃ t, exec (.unrecognised op x y) s = .next t ∧
    t.diag = s.diag ++ [⟨op, s.pc⟩] ∧ t.out = s.out ∧ KeepsRegisters [] s t ∧ t.fl = s.fl ∧ KeepsMemory [] s t ∧
    KeepsRunState s t ∧ Advances (if 128 ≤ op.toNat then 3 else if 64 ≤ op.toNat then 2 else 1) s t

/-- R174, R176, R177, which are the spec's decision D4 (log entries 3 and 4): a register operand of 8 or more in a
recognised instruction stops the CORE in FAULTED, records the first such operand in the order A, B, and changes nothing
else; JEQ and JNE fault whether or not they would jump. -/
def Obligations.BadRegisterOperandFaultsPrecisely : Prop :=
  ∀ (a b : Byte) (s : State),
    (8 ≤ a.toNat → ∀ i ∈ [Instr.ldi a b, .prn a, .not a, .push a, .pop a, .call a, .jmp a, .jeq a, .jne a, .add a b,
        .mul a b, .cmp a b, .and a b, .or a b, .xor a b],
      exec i s = .next { s with runState := .faulted, faultRecord := some ⟨a, s.pc⟩ }) ∧
    (a.toNat < 8 → 8 ≤ b.toNat → ∀ i ∈ [Instr.add a b, .mul a b, .cmp a b, .and a b, .or a b, .xor a b],
      exec i s = .next { s with runState := .faulted, faultRecord := some ⟨b, s.pc⟩ })

/-- R173, R174 (D4, log entry 3): only a register operand of 8 or more enters FAULTED; no arithmetic, address, stack or
control transfer does. -/
def Obligations.OnlyBadRegisterOperandFaults : Prop :=
  ∀ (i : Instr) (s t : State), exec i s = .next t → s.runState ≠ .faulted → t.runState = .faulted →
    ∃ r ∈ i.registerOperands, 8 ≤ r.toNat

/-- R175, R176 (D4 and D7; log entries 4 and 8): a step produces at most one event, and it is the event of the fetched
instruction. -/
def Obligations.StepProducesAtMostItsEvent : Prop :=
  ∀ s t : State, step s = .next t →
    match eventOf s.pc (fetchInstr s) with
    | none => t.diag = s.diag ∧ t.faultRecord = s.faultRecord ∧ t.runState ≠ .faulted
    | some (.diagUnknownOpcode op a) =>
      t.diag = s.diag ++ [⟨op, a⟩] ∧ t.faultRecord = s.faultRecord ∧ t.runState = .running
    | some (.faultBadRegisterIndex r a) =>
      t.diag = s.diag ∧ t.faultRecord = some ⟨r, a⟩ ∧ t.runState = .faulted

/-- C6, R85 (D4, log entry 3): a run in which every fetched instruction has register operands in 0..7 never reaches
FAULTED. -/
def Obligations.LegalOperandsKeepRunSafe : Prop :=
  ∀ s : State, s.runState ≠ .faulted →
    (∀ t, Reaches s t → t.runState = .running → ∀ r ∈ (fetchInstr t).registerOperands, r.toNat < 8) → SafeFrom s

/-! ## Whole-machine rules -/

/-- R28: CMP is the only instruction that writes FL. -/
def Obligations.OnlyCmpWritesFlags : Prop :=
  ∀ (i : Instr) (s t : State), (∀ a b, i ≠ .cmp a b) → exec i s = .next t → t.fl = s.fl

/-- R28: a program can observe only E. States that differ in FL's other bits alone step alike, to states that differ in
FL alone. E's place is D2's (log entry 2). -/
def Obligations.OnlyEqualBitIsObservable : Prop :=
  ∀ (i : Instr) (s t : State) (f : Byte), f.getLsbD 0 = s.fl.getLsbD 0 → exec i s = .next t →
    ∃ u, exec i { s with fl := f } = .next u ∧ { u with fl := t.fl } = t ∧ u.fl.getLsbD 0 = t.fl.getLsbD 0

/-- R44: PUSH and CALL write the cell at SP - 1 (SP before the step), and no other instruction writes memory. -/
def Obligations.OnlyPushAndCallWriteMemory : Prop :=
  ∀ (i : Instr) (s t : State), exec i s = .next t →
    KeepsMemory [s.sp - 1] s t ∧ ((∀ a, i ≠ .push a ∧ i ≠ .call a) → KeepsMemory [] s t)

/-- R44, R56: executing reads no memory but the cell at SP, and that in POP and RET alone: with any other memory in its
place (for POP and RET, one that agrees at SP) the same things happen outside memory and the same byte is stored. -/
def Obligations.ExecutionReadsMemoryOnlyAtStackPointer : Prop :=
  ∀ (i : Instr) (s t : State) (m : Memory), exec i s = .next t →
    ((∃ a, i = .pop a) ∨ i = .ret → m.read s.sp.toNat = memRead s.sp s) →
    ∃ u, exec i { s with mem := m } = .next u ∧ { u with mem := t.mem } = t ∧
      (i.badRegister = none → (∃ a, i = .push a ∨ i = .call a) → memRead (s.sp - 1) u = memRead (s.sp - 1) t)

/-- R21: no instruction writes or reads a register outside its row of the table. An instruction with legal operands
changes no register outside its list of written ones, and changing a register that it does not read changes nothing but that register, which keeps the new
value unless the instruction writes it. -/
def Obligations.RegistersReadAndWrittenAreThoseListed : Prop :=
  ∀ (i : Instr) (s t : State), i.badRegister = none → exec i s = .next t →
    KeepsRegisters (regsWritten i) s t ∧
    ∀ (r : Reg) (v : Byte), r ∉ regsRead s.equal i →
      exec i (s.setReg r v) = .next (if r ∈ regsWritten i then t else t.setReg r v)

/-- R33: both streams are empty at reset; `out` grows only by PRN, by the printed value, at its end; `diag` grows only by
a report, at its end; and nothing reads either list back: with other contents the same step happens and appends the
same. That a report is the opcode byte with its address is R161's, by the spec's decision D7 (log entry 8). -/
def Obligations.OutputStreamsAreAppendOnlyAndNeverRead : Prop :=
  State.reset.out = [] ∧ State.reset.diag = [] ∧
  ∀ s t : State, step s = .next t →
    ∃ (values : List Byte) (reports : List Report), t.out = s.out ++ values ∧ t.diag = s.diag ++ reports ∧
      (values = [] ∨ ∃ r : Reg, fetchInstr s = .prn r.toByte ∧ values = [s.reg r]) ∧
      (reports = [] ∨ ∃ (op : Byte) (x y : Option Byte), fetchInstr s = .unrecognised op x y ∧
        reports = [⟨op, s.pc⟩]) ∧
      ∀ (out : List Byte) (diag : List Report),
        step { s with out := out, diag := diag } = .next { t with out := out ++ values, diag := diag ++ reports }

/-- R54, R201: a PUSH or a CALL executes as it was fetched wherever its store goes, its own opcode and operand byte
included, and the next fetch decodes memory with the stored byte in it, wherever that fetch is: behind the PUSH, or at
the CALL's target. With R7 the pushed byte, and the CALL's target, is the decremented SP (D5, log entry 6). -/
def Obligations.StoredByteIsFetchedByNextStep : Prop :=
  ∀ (r : Reg) (s : State), s.runState = .running →
    (fetchInstr s = .push r.toByte → ∀ (value : Byte) (cell : Byte → Byte),
      value = (if r = 7 then s.sp - 1 else s.reg r) →
      (∀ a, cell a = if a = s.sp - 1 then value else memRead a s) →
      ∃ t rest, step s = .next t ∧ t.pc = s.pc + 2 ∧ t.sp = s.sp - 1 ∧ (∀ a, memRead a t = cell a) ∧
        decode [cell (s.pc + 2), cell (s.pc + 3), cell (s.pc + 4)] = .ok (fetchInstr t, rest)) ∧
    (fetchInstr s = .call r.toByte → ∀ (target : Byte) (cell : Byte → Byte),
      target = (if r = 7 then s.sp - 1 else s.reg r) →
      (∀ a, cell a = if a = s.sp - 1 then s.pc + 2 else memRead a s) →
      ∃ t rest, step s = .next t ∧ t.pc = target ∧ t.sp = s.sp - 1 ∧ (∀ a, memRead a t = cell a) ∧
        decode [cell target, cell (target + 1), cell (target + 2)] = .ok (fetchInstr t, rest))

/-! ## The invariant -/

/-- Every step keeps the invariant: canonical memory, FL's unused bits 0 (R27), reports of unrecognised opcodes alone
(R161), and a precise fault record in FAULTED alone (R174, R177). From every state that meets it, not only reachable
ones. Its FL clause has D2's bit (log entry 2), its fault clause D4 (log entries 3 and 4). -/
def Obligations.StepKeepsInvariant : Prop :=
  ∀ s t : State, s.Inv → step s = .next t → t.Inv

/-- The invariant holds after reset with any image (R190; D17). -/
def Obligations.InvariantHoldsAfterReset : Prop :=
  State.reset.Inv ∧ ∀ (image : List Byte) (before : State), (resetEvent image before).Inv
end

