-- ==== Sys2Proof/Laws/Decode.lean ====
section
/-! SUPPORT. The opcode table, said once: each byte selects its own instruction, and each row's length fits its operands
(30_encoding.md R66, R67). -/

namespace Sys2Proof

@[simp] theorem opcodeMap_opcode (m : Mnemonic) : opcodeMap m.opcode = some m := by
  cases m <;> decide

/-- R67, the well-formedness law of the table. -/
@[simp] theorem formatOf_opcode (m : Mnemonic) : formatOf m.opcode = m.format := by
  cases m <;> decide

theorem opcodeMap_eq_some {op : Byte} {m : Mnemonic} (h : opcodeMap op = some m) : op = m.opcode := by
  unfold opcodeMap at h
  have hm := List.find?_some h
  exact (beq_iff_eq.mp hm).symm

theorem formatOf_of_opcodeMap {op : Byte} {m : Mnemonic} (h : opcodeMap op = some m) : formatOf op = m.format := by
  rw [opcodeMap_eq_some h, formatOf_opcode]

/-! ## Decoding by format -/

theorem decode_f0 {op : Byte} (h : formatOf op = .f0) (rest : List Byte) :
    decode (op :: rest) = .ok (decodeF0 op, rest) := by
  simp only [decode, h]

theorem decode_f1 {op : Byte} (h : formatOf op = .f1) (a : Byte) (rest : List Byte) :
    decode (op :: a :: rest) = .ok (decodeF1 op a, rest) := by
  simp only [decode, h]

theorem decode_f2 {op : Byte} (h : formatOf op = .f2) (a b : Byte) (rest : List Byte) :
    decode (op :: a :: b :: rest) = .ok (decodeF2 op a b, rest) := by
  simp only [decode, h]

/-- Everything the decoder can accept: the three formats (R60). -/
theorem decode_ok_cases {bytes rest : List Byte} {i : Instr} (h : decode bytes = .ok (i, rest)) :
    ∃ op, (formatOf op = .f0 ∧ bytes = op :: rest ∧ i = decodeF0 op) ∨
      (∃ a, formatOf op = .f1 ∧ bytes = op :: a :: rest ∧ i = decodeF1 op a) ∨
      (∃ a b, formatOf op = .f2 ∧ bytes = op :: a :: b :: rest ∧ i = decodeF2 op a b) := by
  rcases bytes with _ | ⟨op, _ | ⟨a, _ | ⟨b, more⟩⟩⟩
  · simp [decode] at h
  all_goals
    refine ⟨op, ?_⟩
    cases hf : formatOf op <;> simp only [decode, hf] at h <;> simp_all

/-- An opcode byte outside the map decodes, in each format, to an unrecognised instruction (R68). -/
theorem decodeF0_unrecognised {op : Byte} (h : opcodeMap op = none) : decodeF0 op = .unrecognised op none none := by
  simp only [decodeF0, h]

theorem decodeF1_unrecognised {op : Byte} (h : opcodeMap op = none) (a : Byte) :
    decodeF1 op a = .unrecognised op (some a) none := by
  simp only [decodeF1, h]

theorem decodeF2_unrecognised {op : Byte} (h : opcodeMap op = none) (a b : Byte) :
    decodeF2 op a b = .unrecognised op (some a) (some b) := by
  simp only [decodeF2, h]

/-! ## Lengths -/

theorem lengthOf_pos (op : Byte) : 1 ≤ lengthOf op ∧ lengthOf op ≤ 3 := by
  unfold lengthOf
  cases formatOf op <;> simp [Format.length]

end Sys2Proof
end

