-- ==== Sys2Proof/Laws/State.lean ====
section
/-! SUPPORT. The field lemmas of every update of State: one per field per operation, and what reading a register or a
cell gives after each. -/

namespace Sys2Proof.Machine

variable (s : State)

/-! ## Registers -/

@[simp] theorem State.sp_eq_reg : s.sp = s.reg Reg.sp := rfl

@[simp] theorem State.setSp_eq_setReg (v : Byte) : s.setSp v = s.setReg Reg.sp v := rfl

@[simp] theorem decSp_eq_setReg : decSp s = s.setReg Reg.sp (s.reg Reg.sp - 1) := rfl

@[simp] theorem incSp_eq_setReg : incSp s = s.setReg Reg.sp (s.reg Reg.sp + 1) := rfl

theorem State.reg_setReg (r q : Reg) (v : Byte) : (s.setReg r v).reg q = if q = r then v else s.reg q := by
  simp [State.reg, State.setReg, Vector.getElem_set, Fin.ext_iff, eq_comm]

@[simp] theorem State.reg_setReg_same (r : Reg) (v : Byte) : (s.setReg r v).reg r = v := by
  simp [State.reg_setReg]

theorem State.reg_setReg_other {r q : Reg} (h : q ≠ r) (v : Byte) : (s.setReg r v).reg q = s.reg q := by
  simp [State.reg_setReg, h]

@[simp] theorem State.setReg_setReg_same (r : Reg) (v w : Byte) : (s.setReg r v).setReg r w = s.setReg r w := by
  simp [State.setReg]

theorem State.setReg_comm {r q : Reg} (h : r ≠ q) (v w : Byte) :
    (s.setReg r v).setReg q w = (s.setReg q w).setReg r v := by
  unfold State.setReg
  congr 1
  exact Vector.set_comm v w (by simpa [Fin.ext_iff] using h)

/-- Two states with the same register reads have the same register file. -/
theorem State.regs_ext {s t : State} (h : ∀ r, s.reg r = t.reg r) : s.regs = t.regs :=
  Vector.ext fun k hk => h ⟨k, hk⟩

/-! ## setReg -/

@[simp] theorem State.setReg_pc (r : Reg) (v : Byte) : (s.setReg r v).pc = s.pc := rfl

@[simp] theorem State.setReg_fl (r : Reg) (v : Byte) : (s.setReg r v).fl = s.fl := rfl

@[simp] theorem State.setReg_runState (r : Reg) (v : Byte) : (s.setReg r v).runState = s.runState := rfl

@[simp] theorem State.setReg_mem (r : Reg) (v : Byte) : (s.setReg r v).mem = s.mem := rfl

@[simp] theorem State.setReg_out (r : Reg) (v : Byte) : (s.setReg r v).out = s.out := rfl

@[simp] theorem State.setReg_diag (r : Reg) (v : Byte) : (s.setReg r v).diag = s.diag := rfl

@[simp] theorem State.setReg_faultRecord (r : Reg) (v : Byte) : (s.setReg r v).faultRecord = s.faultRecord := rfl

@[simp] theorem State.setReg_memRead (r : Reg) (v : Byte) (c : Byte) : memRead c (s.setReg r v) = memRead c s := rfl

@[simp] theorem State.setReg_equal (r : Reg) (v : Byte) : (s.setReg r v).equal = s.equal := rfl

/-! ## jump -/

@[simp] theorem State.jump_regs (t : Byte) : (s.jump t).regs = s.regs := rfl

@[simp] theorem State.jump_pc (t : Byte) : (s.jump t).pc = t := rfl

@[simp] theorem State.jump_fl (t : Byte) : (s.jump t).fl = s.fl := rfl

@[simp] theorem State.jump_runState (t : Byte) : (s.jump t).runState = s.runState := rfl

@[simp] theorem State.jump_mem (t : Byte) : (s.jump t).mem = s.mem := rfl

@[simp] theorem State.jump_out (t : Byte) : (s.jump t).out = s.out := rfl

@[simp] theorem State.jump_diag (t : Byte) : (s.jump t).diag = s.diag := rfl

@[simp] theorem State.jump_faultRecord (t : Byte) : (s.jump t).faultRecord = s.faultRecord := rfl

@[simp] theorem State.jump_reg (t : Byte) (q : Reg) : (s.jump t).reg q = s.reg q := rfl

@[simp] theorem State.jump_memRead (t : Byte) (c : Byte) : memRead c (s.jump t) = memRead c s := rfl

@[simp] theorem State.jump_equal (t : Byte) : (s.jump t).equal = s.equal := rfl

/-! ## advance -/

@[simp] theorem State.advance_regs (n : Nat) : (s.advance n).regs = s.regs := rfl

@[simp] theorem State.advance_pc (n : Nat) : (s.advance n).pc = s.pc + BitVec.ofNat 8 n := rfl

@[simp] theorem State.advance_fl (n : Nat) : (s.advance n).fl = s.fl := rfl

@[simp] theorem State.advance_runState (n : Nat) : (s.advance n).runState = s.runState := rfl

@[simp] theorem State.advance_mem (n : Nat) : (s.advance n).mem = s.mem := rfl

@[simp] theorem State.advance_out (n : Nat) : (s.advance n).out = s.out := rfl

@[simp] theorem State.advance_diag (n : Nat) : (s.advance n).diag = s.diag := rfl

@[simp] theorem State.advance_faultRecord (n : Nat) : (s.advance n).faultRecord = s.faultRecord := rfl

@[simp] theorem State.advance_reg (n : Nat) (q : Reg) : (s.advance n).reg q = s.reg q := rfl

@[simp] theorem State.advance_memRead (n : Nat) (c : Byte) : memRead c (s.advance n) = memRead c s := rfl

@[simp] theorem State.advance_equal (n : Nat) : (s.advance n).equal = s.equal := rfl

/-! ## setEqual -/

@[simp] theorem State.setEqual_regs (e : Bool) : (s.setEqual e).regs = s.regs := rfl

@[simp] theorem State.setEqual_pc (e : Bool) : (s.setEqual e).pc = s.pc := rfl

@[simp] theorem State.setEqual_fl (e : Bool) : (s.setEqual e).fl = flagsByte Config.flEBit e := rfl

@[simp] theorem State.setEqual_runState (e : Bool) : (s.setEqual e).runState = s.runState := rfl

@[simp] theorem State.setEqual_mem (e : Bool) : (s.setEqual e).mem = s.mem := rfl

@[simp] theorem State.setEqual_out (e : Bool) : (s.setEqual e).out = s.out := rfl

@[simp] theorem State.setEqual_diag (e : Bool) : (s.setEqual e).diag = s.diag := rfl

@[simp] theorem State.setEqual_faultRecord (e : Bool) : (s.setEqual e).faultRecord = s.faultRecord := rfl

@[simp] theorem State.setEqual_reg (e : Bool) (q : Reg) : (s.setEqual e).reg q = s.reg q := rfl

@[simp] theorem State.setEqual_memRead (e : Bool) (c : Byte) : memRead c (s.setEqual e) = memRead c s := rfl

/-! ## memWrite -/

@[simp] theorem memWrite_regs (a v : Byte) : (memWrite a v s).regs = s.regs := rfl

@[simp] theorem memWrite_pc (a v : Byte) : (memWrite a v s).pc = s.pc := rfl

@[simp] theorem memWrite_fl (a v : Byte) : (memWrite a v s).fl = s.fl := rfl

@[simp] theorem memWrite_runState (a v : Byte) : (memWrite a v s).runState = s.runState := rfl

@[simp] theorem memWrite_mem (a v : Byte) : (memWrite a v s).mem = s.mem.write a.toNat v := rfl

@[simp] theorem memWrite_out (a v : Byte) : (memWrite a v s).out = s.out := rfl

@[simp] theorem memWrite_diag (a v : Byte) : (memWrite a v s).diag = s.diag := rfl

@[simp] theorem memWrite_faultRecord (a v : Byte) : (memWrite a v s).faultRecord = s.faultRecord := rfl

@[simp] theorem memWrite_reg (a v : Byte) (q : Reg) : (memWrite a v s).reg q = s.reg q := rfl

@[simp] theorem memWrite_equal (a v : Byte) : (memWrite a v s).equal = s.equal := rfl

/-! ## emitOut -/

@[simp] theorem emitOut_regs (v : Byte) : (emitOut v s).regs = s.regs := rfl

@[simp] theorem emitOut_pc (v : Byte) : (emitOut v s).pc = s.pc := rfl

@[simp] theorem emitOut_fl (v : Byte) : (emitOut v s).fl = s.fl := rfl

@[simp] theorem emitOut_runState (v : Byte) : (emitOut v s).runState = s.runState := rfl

@[simp] theorem emitOut_mem (v : Byte) : (emitOut v s).mem = s.mem := rfl

@[simp] theorem emitOut_out (v : Byte) : (emitOut v s).out = s.out ++ [v] := rfl

@[simp] theorem emitOut_diag (v : Byte) : (emitOut v s).diag = s.diag := rfl

@[simp] theorem emitOut_faultRecord (v : Byte) : (emitOut v s).faultRecord = s.faultRecord := rfl

@[simp] theorem emitOut_reg (v : Byte) (q : Reg) : (emitOut v s).reg q = s.reg q := rfl

@[simp] theorem emitOut_memRead (v : Byte) (c : Byte) : memRead c (emitOut v s) = memRead c s := rfl

@[simp] theorem emitOut_equal (v : Byte) : (emitOut v s).equal = s.equal := rfl

/-! ## emitDiag -/

@[simp] theorem emitDiag_regs (op a : Byte) : (emitDiag op a s).regs = s.regs := rfl

@[simp] theorem emitDiag_pc (op a : Byte) : (emitDiag op a s).pc = s.pc := rfl

@[simp] theorem emitDiag_fl (op a : Byte) : (emitDiag op a s).fl = s.fl := rfl

@[simp] theorem emitDiag_runState (op a : Byte) : (emitDiag op a s).runState = s.runState := rfl

@[simp] theorem emitDiag_mem (op a : Byte) : (emitDiag op a s).mem = s.mem := rfl

@[simp] theorem emitDiag_out (op a : Byte) : (emitDiag op a s).out = s.out := rfl

@[simp] theorem emitDiag_diag (op a : Byte) : (emitDiag op a s).diag = s.diag ++ [⟨op, a⟩] := rfl

@[simp] theorem emitDiag_faultRecord (op a : Byte) : (emitDiag op a s).faultRecord = s.faultRecord := rfl

@[simp] theorem emitDiag_reg (op a : Byte) (q : Reg) : (emitDiag op a s).reg q = s.reg q := rfl

@[simp] theorem emitDiag_memRead (op a : Byte) (c : Byte) : memRead c (emitDiag op a s) = memRead c s := rfl

@[simp] theorem emitDiag_equal (op a : Byte) : (emitDiag op a s).equal = s.equal := rfl

/-! ## raiseBadRegister -/

@[simp] theorem raiseBadRegister_regs (r : Byte) : (raiseBadRegister r s).regs = s.regs := rfl

@[simp] theorem raiseBadRegister_pc (r : Byte) : (raiseBadRegister r s).pc = s.pc := rfl

@[simp] theorem raiseBadRegister_fl (r : Byte) : (raiseBadRegister r s).fl = s.fl := rfl

@[simp] theorem raiseBadRegister_runState (r : Byte) : (raiseBadRegister r s).runState = .faulted := rfl

@[simp] theorem raiseBadRegister_mem (r : Byte) : (raiseBadRegister r s).mem = s.mem := rfl

@[simp] theorem raiseBadRegister_out (r : Byte) : (raiseBadRegister r s).out = s.out := rfl

@[simp] theorem raiseBadRegister_diag (r : Byte) : (raiseBadRegister r s).diag = s.diag := rfl

@[simp] theorem raiseBadRegister_faultRecord (r : Byte) : (raiseBadRegister r s).faultRecord = some ⟨r, s.pc⟩ := rfl

@[simp] theorem raiseBadRegister_reg (r : Byte) (q : Reg) : (raiseBadRegister r s).reg q = s.reg q := rfl

@[simp] theorem raiseBadRegister_memRead (r : Byte) (c : Byte) : memRead c (raiseBadRegister r s) = memRead c s := rfl

@[simp] theorem raiseBadRegister_equal (r : Byte) : (raiseBadRegister r s).equal = s.equal := rfl

/-! ## haltWith -/

@[simp] theorem haltWith_regs (p : Config.PcAfterHalt) : (haltWith p s).regs = s.regs := by
  cases p <;> rfl

@[simp] theorem haltWith_fl (p : Config.PcAfterHalt) : (haltWith p s).fl = s.fl := by
  cases p <;> rfl

@[simp] theorem haltWith_runState (p : Config.PcAfterHalt) : (haltWith p s).runState = .halted := by
  cases p <;> rfl

@[simp] theorem haltWith_mem (p : Config.PcAfterHalt) : (haltWith p s).mem = s.mem := by
  cases p <;> rfl

@[simp] theorem haltWith_out (p : Config.PcAfterHalt) : (haltWith p s).out = s.out := by
  cases p <;> rfl

@[simp] theorem haltWith_diag (p : Config.PcAfterHalt) : (haltWith p s).diag = s.diag := by
  cases p <;> rfl

@[simp] theorem haltWith_faultRecord (p : Config.PcAfterHalt) : (haltWith p s).faultRecord = s.faultRecord := by
  cases p <;> rfl

@[simp] theorem haltWith_reg (p : Config.PcAfterHalt) (q : Reg) : (haltWith p s).reg q = s.reg q := by
  cases p <;> rfl

@[simp] theorem haltWith_memRead (p : Config.PcAfterHalt) (c : Byte) : memRead c (haltWith p s) = memRead c s := by
  cases p <;> rfl

@[simp] theorem haltWith_equal (p : Config.PcAfterHalt) : (haltWith p s).equal = s.equal := by
  cases p <;> rfl

/-! ## The flag bit -/

/-- Reading E back gives what was written, wherever E stands (D2: the place is unobservable). -/
theorem equalBit_flagsByte (bit : Fin 8) (e : Bool) : equalBit bit (flagsByte bit e) = e := by
  revert bit e; decide

@[simp] theorem State.setEqual_equal (e : Bool) : (s.setEqual e).equal = e := equalBit_flagsByte _ _

end Sys2Proof.Machine
end

