-- ==== Sys2Proof/Laws/Memory.lean ====
section
/-! SUPPORT. The laws of memory: read after write, the other cells, and the canonical form, which every memory operation
keeps. The read laws hold of every list; the form is needed only for equality. -/

namespace Sys2Proof.Machine

/-! ## Reading after the list operations -/

theorem Memory.read_cons (k : Nat) (v : Byte) (m : Memory) (a : Nat) :
    Memory.read ((k, v) :: m) a = if a = k then v else Memory.read m a := rfl

theorem Memory.read_filter_ne (m : Memory) (a b : Nat) :
    Memory.read (m.filter fun c => c.1 ≠ a) b = if b = a then 0 else Memory.read m b := by
  induction m with
  | nil => simp [Memory.read]
  | cons c m ih =>
    obtain ⟨k, w⟩ := c
    by_cases hk : k = a
    · simp only [List.filter_cons, hk, ne_eq, not_true, decide_false, Bool.false_eq_true, if_false, Memory.read_cons]
      simp only [ne_eq] at ih
      rw [ih]
      by_cases hb : b = a <;> simp [hb]
    · simp only [List.filter_cons, ne_eq, hk, not_false_eq_true, decide_true, if_true, Memory.read_cons]
      simp only [ne_eq] at ih
      rw [ih]
      by_cases hb : b = a
      · simp [hb, Ne.symm hk]
      · simp [hb]

/-- An insertion at an address no entry has reads as its value there, and changes no other address. -/
theorem Memory.read_insert (m : Memory) (a : Nat) (v : Byte) (b : Nat) (h : ∀ c ∈ m, c.1 ≠ a) :
    Memory.read (Memory.insert m a v) b = if b = a then v else Memory.read m b := by
  induction m with
  | nil => simp [Memory.insert, Memory.read]
  | cons c m ih =>
    obtain ⟨k, w⟩ := c
    have hk : k ≠ a := h (k, w) (by simp)
    have ih' := ih fun c hc => h c (by simp [hc])
    by_cases hlt : a < k
    · simp [Memory.insert, hlt, Memory.read_cons]
    · simp only [Memory.insert, hlt, if_false, Memory.read_cons, ih']
      by_cases hb : b = a
      · simp [hb, Ne.symm hk]
      · simp [hb]

/-- Read after write, at the written address and at any other (R42). -/
theorem Memory.read_write (m : Memory) (a : Nat) (v : Byte) (b : Nat) :
    (m.write a v).read b = if b = a then v else m.read b := by
  have hnone : ∀ c ∈ m.filter (fun c => c.1 ≠ a), c.1 ≠ a := fun c hc => by simpa using (List.mem_filter.mp hc).2
  unfold Memory.write
  by_cases hv : v = 0
  · simp only [hv, if_true]
    exact Memory.read_filter_ne m a b
  · simp only [hv, if_false]
    rw [Memory.read_insert _ a v b hnone, Memory.read_filter_ne]
    by_cases hb : b = a <;> simp [hb]

/-- A read after a write through the 8-bit interface. -/
theorem memRead_memWrite (a v c : Byte) (s : State) :
    memRead c (memWrite a v s) = if c = a then v else memRead c s := by
  simp [memRead, Memory.read_write, BitVec.toNat_inj]

@[simp] theorem memRead_memWrite_same (a v : Byte) (s : State) : memRead a (memWrite a v s) = v := by
  simp [memRead_memWrite]

theorem memRead_memWrite_other {a c : Byte} (h : c ≠ a) (v : Byte) (s : State) :
    memRead c (memWrite a v s) = memRead c s := by
  simp [memRead_memWrite, h]

/-! ## The canonical form -/

theorem Memory.wf_nil : Memory.wf [] := by simp [Memory.wf]

theorem Memory.mem_insert {m : Memory} {a : Nat} {v : Byte} {c : Host.Cell} (h : c ∈ Memory.insert m a v) :
    c = (a, v) ∨ c ∈ m := by
  induction m with
  | nil => simpa [Memory.insert] using h
  | cons d m ih =>
    obtain ⟨k, w⟩ := d
    by_cases hlt : a < k
    · simpa [Memory.insert, hlt] using h
    · simp only [Memory.insert, hlt, if_false, List.mem_cons] at h
      rcases h with h | h
      · exact .inr (by simp [h])
      · exact (ih h).imp_right (List.mem_cons_of_mem _)

theorem Memory.pairwise_insert {m : Memory} {a : Nat} {v : Byte} (hm : m.Pairwise fun c d => c.1 < d.1)
    (h : ∀ c ∈ m, c.1 ≠ a) : (Memory.insert m a v).Pairwise fun c d => c.1 < d.1 := by
  induction m with
  | nil => simp [Memory.insert]
  | cons d m ih =>
    obtain ⟨k, w⟩ := d
    obtain ⟨hhead, htail⟩ := List.pairwise_cons.mp hm
    have hk : k ≠ a := h (k, w) (by simp)
    by_cases hlt : a < k
    · simp only [Memory.insert, hlt, if_true]
      refine List.pairwise_cons.mpr ⟨fun c hc => ?_, hm⟩
      rcases List.mem_cons.mp hc with rfl | hc
      · exact hlt
      · exact hlt.trans (hhead c hc)
    · simp only [Memory.insert, hlt, if_false]
      refine List.pairwise_cons.mpr ⟨fun c hc => ?_, ih htail fun c hc => h c (by simp [hc])⟩
      rcases Memory.mem_insert hc with rfl | hc
      · exact lt_of_le_of_ne (not_lt.mp hlt) hk
      · exact hhead c hc

/-- A write at an address of the address space keeps the canonical form. -/
theorem Memory.wf_write {m : Memory} (hm : m.wf) {a : Nat} (ha : a < 256) (v : Byte) : (m.write a v).wf := by
  obtain ⟨hsorted, hcells⟩ := hm
  have hrest := hsorted.filter (fun c => decide (c.1 ≠ a))
  have hnone : ∀ c ∈ m.filter (fun c => c.1 ≠ a), c.1 ≠ a := fun c hc => by simpa using (List.mem_filter.mp hc).2
  unfold Memory.write
  by_cases hv : v = 0
  · simp only [hv, if_true]
    exact ⟨hrest, fun c hc => hcells c (List.mem_filter.mp hc).1⟩
  · simp only [hv, if_false]
    refine ⟨Memory.pairwise_insert hrest hnone, fun c hc => ?_⟩
    rcases Memory.mem_insert hc with rfl | hc
    · exact ⟨ha, hv⟩
    · exact hcells c (List.mem_filter.mp hc).1

/-- The store of one byte keeps the canonical form. -/
theorem memWrite_wf {s : State} (h : s.mem.wf) (a v : Byte) : (memWrite a v s).mem.wf :=
  Memory.wf_write h a.isLt v

/-- The store through the wrapping interface keeps the canonical form. -/
theorem memWriteAt_wf {s : State} (h : s.mem.wf) (a v : Int) : (memWriteAt a v s).mem.wf :=
  memWrite_wf h _ _

theorem reset_memory_wf : State.reset.mem.wf := Memory.wf_nil

end Sys2Proof.Machine
end

