-- ==== Sys2Proof/Laws/Fetch.lean ====
section
/-! SUPPORT. The fetch reads pc and memory alone; the two addresses in which addresses and bytes are wrapped agree with
the 8-bit ones; and what a step is in each run state. -/

namespace Sys2Proof.Machine

@[simp] theorem wrap_natCast (n : Nat) : wrap (n : Int) = BitVec.ofNat 8 n := by
  unfold wrap
  exact BitVec.ofInt_natCast 8 n

theorem wrap_toNat (b : Byte) : wrap (b.toNat : Int) = b := by
  rw [wrap_natCast, BitVec.ofNat_toNat, BitVec.setWidth_eq]

/-- An integer address counted on from a byte is the 8-bit sum (R41, R47). -/
theorem memReadAt_toNat_add (b : Byte) (n : Nat) (s : State) :
    memReadAt ((b.toNat : Int) + (n : Int)) s = memRead (b + BitVec.ofNat 8 n) s := by
  unfold memReadAt
  rw [← Int.natCast_add, wrap_natCast, BitVec.ofNat_add, BitVec.ofNat_toNat, BitVec.setWidth_eq]

theorem memReadAt_toNat (b : Byte) (s : State) : memReadAt (b.toNat : Int) s = memRead b s := by
  unfold memReadAt
  rw [wrap_toNat]

theorem fetchInstr_f0 {s : State} (h : formatOf (memRead s.pc s) = .f0) : fetchInstr s = decodeF0 (memRead s.pc s) := by
  simp only [fetchInstr, h]

theorem fetchInstr_f1 {s : State} (h : formatOf (memRead s.pc s) = .f1) :
    fetchInstr s = decodeF1 (memRead s.pc s) (memRead (s.pc + 1) s) := by
  simp only [fetchInstr, h]

theorem fetchInstr_f2 {s : State} (h : formatOf (memRead s.pc s) = .f2) :
    fetchInstr s = decodeF2 (memRead s.pc s) (memRead (s.pc + 1) s) (memRead (s.pc + 2) s) := by
  simp only [fetchInstr, h]

/-- The fetched instruction is what the decoder reads from the three bytes at pc, and it leaves those it does not need. -/
theorem decode_bytes_at_pc (s : State) :
    ∃ rest, decode [memRead s.pc s, memRead (s.pc + 1) s, memRead (s.pc + 2) s] = .ok (fetchInstr s, rest) := by
  cases hf : formatOf (memRead s.pc s) with
  | f0 => exact ⟨_, by rw [fetchInstr_f0 hf, decode_f0 hf]⟩
  | f1 => exact ⟨_, by rw [fetchInstr_f1 hf, decode_f1 hf]⟩
  | f2 => exact ⟨_, by rw [fetchInstr_f2 hf, decode_f2 hf]⟩

/-- The fetch depends on pc and memory alone (R32, R54). -/
theorem fetchInstr_congr {s t : State} (hpc : t.pc = s.pc) (hmem : t.mem = s.mem) : fetchInstr t = fetchInstr s := by
  simp [fetchInstr, memRead, hpc, hmem]

@[simp] theorem fetchInstr_raiseBadRegister (r : Byte) (s : State) :
    fetchInstr (raiseBadRegister r s) = fetchInstr s := fetchInstr_congr rfl rfl

theorem step_running {s : State} (h : s.runState = .running) : step s = exec (fetchInstr s) s := by
  simp [step, h]

theorem step_halted {s : State} (h : s.runState = .halted) : step s = .fault .halted := by
  simp [step, h]

theorem step_faulted {s : State} (h : s.runState = .faulted) : step s = .fault .faulted := by
  simp [step, h]

/-- A step that answers a next state is the execution of the fetched instruction in RUNNING. -/
theorem step_next {s t : State} (h : step s = .next t) :
    s.runState = .running ∧ exec (fetchInstr s) s = .next t := by
  unfold step at h
  split at h
  · next hr => exact ⟨hr, h⟩
  · cases h
  · cases h

end Sys2Proof.Machine
end

