-- ==== Sys2Proof/Laws/Operands.lean ====
section
/-! SUPPORT. The operand check, said once: which bytes name a register, and what the two operand forms answer. -/

namespace Sys2Proof.Machine

/-- The byte of a register names that register. -/
@[simp] theorem registerOf_toByte (r : Reg) : registerOf r.toByte = some r := by
  revert r; decide

/-- A byte below 8 is the byte of a register. -/
theorem toByte_of_lt {a : Byte} (h : a.toNat < 8) : Reg.toByte ⟨a.toNat, h⟩ = a := by
  simp [Reg.toByte]

theorem registerOf_eq_some {a : Byte} {r : Reg} (h : registerOf a = some r) : a = r.toByte := by
  unfold registerOf at h
  split at h
  · next hlt => cases h; exact (toByte_of_lt hlt).symm
  · cases h

theorem registerOf_eq_none_iff {a : Byte} : registerOf a = none ↔ 8 ≤ a.toNat := by
  unfold registerOf
  split <;> simp <;> omega

theorem registerOf_bad {a : Byte} (h : 8 ≤ a.toNat) : registerOf a = none := registerOf_eq_none_iff.mpr h

@[simp] theorem withRegister_toByte (r : Reg) (s : State) (k : Reg → State) :
    withRegister r.toByte s k = .next (k r) := by
  simp [withRegister]

theorem withRegister_bad {a : Byte} (h : 8 ≤ a.toNat) (s : State) (k : Reg → State) :
    withRegister a s k = .next (raiseBadRegister a s) := by
  simp [withRegister, registerOf_bad h]

@[simp] theorem withRegisters_toByte (r q : Reg) (s : State) (k : Reg → Reg → State) :
    withRegisters r.toByte q.toByte s k = .next (k r q) := by
  simp [withRegisters]

theorem withRegisters_bad_first {a : Byte} (h : 8 ≤ a.toNat) (b : Byte) (s : State) (k : Reg → Reg → State) :
    withRegisters a b s k = .next (raiseBadRegister a s) := by
  simp [withRegisters, registerOf_bad h]

theorem withRegisters_bad_second (r : Reg) {b : Byte} (h : 8 ≤ b.toNat) (s : State) (k : Reg → Reg → State) :
    withRegisters r.toByte b s k = .next (raiseBadRegister b s) := by
  simp [withRegisters, withRegister_bad h]

/-- Everything a one-register form can answer. -/
theorem withRegister_cases {a : Byte} {s t : State} {k : Reg → State} (h : withRegister a s k = .next t) :
    (∃ r : Reg, a = r.toByte ∧ t = k r) ∨ (8 ≤ a.toNat ∧ t = raiseBadRegister a s) := by
  unfold withRegister at h
  split at h
  · next r hr => exact .inl ⟨r, registerOf_eq_some hr, (Host.Outcome.next.inj h).symm⟩
  · next hr => exact .inr ⟨registerOf_eq_none_iff.mp hr, (Host.Outcome.next.inj h).symm⟩

/-- Everything a two-register form can answer: A is checked before B. -/
theorem withRegisters_cases {a b : Byte} {s t : State} {k : Reg → Reg → State} (h : withRegisters a b s k = .next t) :
    (∃ r q : Reg, a = r.toByte ∧ b = q.toByte ∧ t = k r q) ∨ (8 ≤ a.toNat ∧ t = raiseBadRegister a s) ∨
      (∃ r : Reg, a = r.toByte ∧ 8 ≤ b.toNat ∧ t = raiseBadRegister b s) := by
  unfold withRegisters at h
  split at h
  · next r hr =>
    rcases withRegister_cases h with ⟨q, hq, ht⟩ | ⟨hb, ht⟩
    · exact .inl ⟨r, q, registerOf_eq_some hr, hq, ht⟩
    · exact .inr (.inr ⟨r, registerOf_eq_some hr, hb, ht⟩)
  · next hr => exact .inr (.inl ⟨registerOf_eq_none_iff.mp hr, (Host.Outcome.next.inj h).symm⟩)

end Sys2Proof.Machine
end

