-- ==== Sys2Proof/Laws/Exec.lean ====
section
/-! SUPPORT. What `exec` can do, said once: it always answers a next state; a bad register operand faults; and with legal
operands the next state is the one `LegalStep` lists. Later proofs cite `exec_cases` and never unfold a meaning. -/

namespace Sys2Proof.Machine

/-- The next state of each instruction whose register operands are all in 0..7, in terms of the named operations. -/
inductive LegalStep : Instr → State → State → Prop where
  | hlt (s : State) : LegalStep .hlt s (haltWith Config.pcAfterHalt s)
  | ldi (ra : Reg) (imm : Byte) (s : State) : LegalStep (.ldi ra.toByte imm) s ((s.setReg ra imm).advance 3)
  | prn (ra : Reg) (s : State) : LegalStep (.prn ra.toByte) s ((emitOut (s.reg ra) s).advance 2)
  | add (ra rb : Reg) (s : State) : LegalStep (.add ra.toByte rb.toByte) s
      ((s.setReg ra (aluAdd (s.reg ra) (s.reg rb))).advance 3)
  | mul (ra rb : Reg) (s : State) : LegalStep (.mul ra.toByte rb.toByte) s
      ((s.setReg ra (aluMul (s.reg ra) (s.reg rb))).advance 3)
  | cmp (ra rb : Reg) (s : State) : LegalStep (.cmp ra.toByte rb.toByte) s
      ((s.setEqual (aluEqual (s.reg ra) (s.reg rb))).advance 3)
  | and (ra rb : Reg) (s : State) : LegalStep (.and ra.toByte rb.toByte) s
      ((s.setReg ra (aluAnd (s.reg ra) (s.reg rb))).advance 3)
  | or (ra rb : Reg) (s : State) : LegalStep (.or ra.toByte rb.toByte) s
      ((s.setReg ra (aluOr (s.reg ra) (s.reg rb))).advance 3)
  | xor (ra rb : Reg) (s : State) : LegalStep (.xor ra.toByte rb.toByte) s
      ((s.setReg ra (aluXor (s.reg ra) (s.reg rb))).advance 3)
  | not (ra : Reg) (s : State) : LegalStep (.not ra.toByte) s ((s.setReg ra (aluNot (s.reg ra))).advance 2)
  | push (ra : Reg) (s : State) : LegalStep (.push ra.toByte) s
      ((memWrite (decSp s).sp ((decSp s).reg ra) (decSp s)).advance 2)
  | pop (ra : Reg) (s : State) : LegalStep (.pop ra.toByte) s
      ((incSp (s.setReg ra (memRead s.sp s))).advance 2)
  | call (ra : Reg) (s : State) : LegalStep (.call ra.toByte) s
      ((memWrite (decSp s).sp (s.pc + 2) (decSp s)).jump ((decSp s).reg ra))
  | ret (s : State) : LegalStep .ret s (incSp (s.jump (memRead s.sp s)))
  | jmp (ra : Reg) (s : State) : LegalStep (.jmp ra.toByte) s (s.jump (s.reg ra))
  | jeq_taken (ra : Reg) (s : State) (h : s.equal = true) : LegalStep (.jeq ra.toByte) s (s.jump (s.reg ra))
  | jeq_not_taken (ra : Reg) (s : State) (h : s.equal = false) : LegalStep (.jeq ra.toByte) s (s.advance 2)
  | jne_taken (ra : Reg) (s : State) (h : s.equal = false) : LegalStep (.jne ra.toByte) s (s.jump (s.reg ra))
  | jne_not_taken (ra : Reg) (s : State) (h : s.equal = true) : LegalStep (.jne ra.toByte) s (s.advance 2)
  | unrecognised (op : Byte) (x y : Option Byte) (s : State) :
      LegalStep (.unrecognised op x y) s ((emitDiag op s.pc s).advance (lengthOf op))

/-- A legal step is an execution. -/
theorem LegalStep.exec_eq {i : Instr} {s t : State} (h : LegalStep i s t) : exec i s = .next t := by
  cases h
  case hlt | ret | unrecognised => rfl
  case add | mul | cmp | and | or | xor => exact withRegisters_toByte _ _ _ _
  case ldi | prn | not | push | pop | call | jmp => exact withRegister_toByte _ _ _
  case jeq_taken h | jeq_not_taken h => exact (withRegister_toByte _ _ _).trans (by rw [h]; rfl)
  case jne_taken h | jne_not_taken h => exact (withRegister_toByte _ _ _).trans (by rw [h]; rfl)

/-! ## The first bad operand -/

theorem toByte_lt_eight (r : Reg) : r.toByte.toNat < 8 := by revert r; decide

theorem findBad_bad {a : Byte} (h : 8 ≤ a.toNat) (l : List Byte) :
    (a :: l).find? (fun r => decide (8 ≤ r.toNat)) = some a := by
  simp [h]

@[simp] theorem findBad_toByte (r : Reg) (l : List Byte) :
    (r.toByte :: l).find? (fun r => decide (8 ≤ r.toNat)) = l.find? (fun r => decide (8 ≤ r.toNat)) := by
  have := toByte_lt_eight r
  simp [this]

/-- A reported operand is a register operand of 8 or more. -/
theorem badRegister_some {i : Instr} {r : Byte} (h : i.badRegister = some r) :
    r ∈ i.registerOperands ∧ 8 ≤ r.toNat := by
  unfold Instr.badRegister at h
  exact ⟨List.mem_of_find?_eq_some h, by simpa using List.find?_some h⟩

theorem LegalStep.badRegister {i : Instr} {s t : State} (h : LegalStep i s t) : i.badRegister = none := by
  cases h <;> simp [Instr.badRegister, Instr.registerOperands, toByte_lt_eight]

/-- A byte is that of a register, or 8 or more. -/
theorem byte_register_or_bad (a : Byte) : (∃ r : Reg, a = r.toByte) ∨ 8 ≤ a.toNat := by
  rcases Nat.lt_or_ge a.toNat 8 with h | h
  · exact .inl ⟨⟨a.toNat, h⟩, (toByte_of_lt h).symm⟩
  · exact .inr h

/-- What a one-register instruction answers, given its legal case. -/
theorem withRegister_split {i : Instr} {a : Byte} {s : State} {k : Reg → State} (hops : i.registerOperands = [a])
    (hexec : exec i s = withRegister a s k) (hlegal : ∀ r : Reg, a = r.toByte → ∃ t, LegalStep i s t) :
    (∃ r, i.badRegister = some r ∧ exec i s = .next (raiseBadRegister r s)) ∨ ∃ t, LegalStep i s t := by
  rcases byte_register_or_bad a with ⟨r, rfl⟩ | h
  · exact .inr (hlegal r rfl)
  · exact .inl ⟨a, by rw [Instr.badRegister, hops, findBad_bad h], hexec.trans (withRegister_bad h _ _)⟩

/-- What a two-register instruction answers, given its legal case. -/
theorem withRegisters_split {i : Instr} {a b : Byte} {s : State} {k : Reg → Reg → State}
    (hops : i.registerOperands = [a, b]) (hexec : exec i s = withRegisters a b s k)
    (hlegal : ∀ r q : Reg, a = r.toByte → b = q.toByte → ∃ t, LegalStep i s t) :
    (∃ r, i.badRegister = some r ∧ exec i s = .next (raiseBadRegister r s)) ∨ ∃ t, LegalStep i s t := by
  rcases byte_register_or_bad a with ⟨r, rfl⟩ | ha
  · rcases byte_register_or_bad b with ⟨q, rfl⟩ | hb
    · exact .inr (hlegal r q rfl rfl)
    · exact .inl ⟨b, by rw [Instr.badRegister, hops, findBad_toByte, findBad_bad hb],
        hexec.trans (withRegisters_bad_second r hb _ _)⟩
  · exact .inl ⟨a, by rw [Instr.badRegister, hops, findBad_bad ha], hexec.trans (withRegisters_bad_first ha _ _ _)⟩

/-- An execution faults on a bad register operand or is a legal step. -/
theorem exec_fault_or_legal (i : Instr) (s : State) :
    (∃ r, i.badRegister = some r ∧ exec i s = .next (raiseBadRegister r s)) ∨ ∃ t, LegalStep i s t := by
  cases i with
  | hlt => exact .inr ⟨_, .hlt s⟩
  | ret => exact .inr ⟨_, .ret s⟩
  | unrecognised op x y => exact .inr ⟨_, .unrecognised op x y s⟩
  | ldi a imm => exact withRegister_split rfl rfl fun r h => h ▸ ⟨_, .ldi r imm s⟩
  | prn a => exact withRegister_split rfl rfl fun r h => h ▸ ⟨_, .prn r s⟩
  | not a => exact withRegister_split rfl rfl fun r h => h ▸ ⟨_, .not r s⟩
  | push a => exact withRegister_split rfl rfl fun r h => h ▸ ⟨_, .push r s⟩
  | pop a => exact withRegister_split rfl rfl fun r h => h ▸ ⟨_, .pop r s⟩
  | call a => exact withRegister_split rfl rfl fun r h => h ▸ ⟨_, .call r s⟩
  | jmp a => exact withRegister_split rfl rfl fun r h => h ▸ ⟨_, .jmp r s⟩
  | jeq a =>
    refine withRegister_split rfl rfl fun r h => h ▸ ?_
    cases he : s.equal
    · exact ⟨_, .jeq_not_taken r s he⟩
    · exact ⟨_, .jeq_taken r s he⟩
  | jne a =>
    refine withRegister_split rfl rfl fun r h => h ▸ ?_
    cases he : s.equal
    · exact ⟨_, .jne_taken r s he⟩
    · exact ⟨_, .jne_not_taken r s he⟩
  | add a b => exact withRegisters_split rfl rfl fun r q ha hb => ha ▸ hb ▸ ⟨_, .add r q s⟩
  | mul a b => exact withRegisters_split rfl rfl fun r q ha hb => ha ▸ hb ▸ ⟨_, .mul r q s⟩
  | cmp a b => exact withRegisters_split rfl rfl fun r q ha hb => ha ▸ hb ▸ ⟨_, .cmp r q s⟩
  | and a b => exact withRegisters_split rfl rfl fun r q ha hb => ha ▸ hb ▸ ⟨_, .and r q s⟩
  | or a b => exact withRegisters_split rfl rfl fun r q ha hb => ha ▸ hb ▸ ⟨_, .or r q s⟩
  | xor a b => exact withRegisters_split rfl rfl fun r q ha hb => ha ▸ hb ▸ ⟨_, .xor r q s⟩

/-- A bad register operand faults, in every instruction that has one (R174). -/
theorem exec_of_badRegister {i : Instr} {r : Byte} (h : i.badRegister = some r) (s : State) :
    exec i s = .next (raiseBadRegister r s) := by
  rcases exec_fault_or_legal i s with ⟨q, hq, hexec⟩ | ⟨t, ht⟩
  · exact Option.some.inj (hq.symm.trans h) ▸ hexec
  · rw [ht.badRegister] at h
    cases h

/-- Everything an execution can do. -/
theorem exec_cases {i : Instr} {s t : State} (h : exec i s = .next t) :
    (∃ r, i.badRegister = some r ∧ t = raiseBadRegister r s) ∨ LegalStep i s t := by
  rcases exec_fault_or_legal i s with ⟨r, hr, hexec⟩ | ⟨u, hu⟩
  · exact .inl ⟨r, hr, Host.Outcome.next.inj (h.symm.trans hexec)⟩
  · have htu : t = u := Host.Outcome.next.inj (h.symm.trans hu.exec_eq)
    exact .inr (htu ▸ hu)

/-- An execution always answers a next state: no instruction of this CORE stops the model. -/
theorem exec_answers_next (i : Instr) (s : State) : ∃ t, exec i s = .next t := by
  rcases exec_fault_or_legal i s with ⟨r, _, h⟩ | ⟨t, ht⟩
  · exact ⟨_, h⟩
  · exact ⟨t, ht.exec_eq⟩

end Sys2Proof.Machine
end

