-- ==== Sys2Proof/Laws/PerInstr.lean ====
section
/-! SUPPORT. Statements about every instruction as syntax, one lemma per constructor. EncodedLength: the bytes of a
well-formed instruction are as many as its length (30_encoding.md R60, R67). -/

namespace Sys2Proof.Laws.EncodedLength

/-- The encoding of a well-formed instruction has the instruction's length. -/
def Statement (i : Instr) : Prop := i.wellFormed = true → (encode i).length = i.length

theorem hlt : Statement .hlt := fun _ => rfl
theorem ldi (a imm : Byte) : Statement (.ldi a imm) := fun _ => rfl
theorem prn (a : Byte) : Statement (.prn a) := fun _ => rfl
theorem add (a b : Byte) : Statement (.add a b) := fun _ => rfl
theorem mul (a b : Byte) : Statement (.mul a b) := fun _ => rfl
theorem cmp (a b : Byte) : Statement (.cmp a b) := fun _ => rfl
theorem and (a b : Byte) : Statement (.and a b) := fun _ => rfl
theorem or (a b : Byte) : Statement (.or a b) := fun _ => rfl
theorem xor (a b : Byte) : Statement (.xor a b) := fun _ => rfl
theorem not (a : Byte) : Statement (.not a) := fun _ => rfl
theorem push (a : Byte) : Statement (.push a) := fun _ => rfl
theorem pop (a : Byte) : Statement (.pop a) := fun _ => rfl
theorem call (a : Byte) : Statement (.call a) := fun _ => rfl
theorem ret : Statement .ret := fun _ => rfl
theorem jmp (a : Byte) : Statement (.jmp a) := fun _ => rfl
theorem jeq (a : Byte) : Statement (.jeq a) := fun _ => rfl
theorem jne (a : Byte) : Statement (.jne a) := fun _ => rfl

theorem unrecognised (op : Byte) (a b : Option Byte) : Statement (.unrecognised op a b) := fun h => by
  simp only [Instr.wellFormed, Bool.and_eq_true] at h
  have hadm := h.2
  simp only [encode, Instr.length, lengthOf]
  cases hf : formatOf op <;> cases a <;> cases b <;> simp_all [Format.admits, Format.length]

end Sys2Proof.Laws.EncodedLength
end

