-- ==== Sys2Proof/Tests/Slice0.lean ====
section
/-! SUPPORT. The model's own tests: the WellFormed smoke, a word of every constructor, one-step vectors taken from
95_test_vectors.md (named V-…), and a witness for the hypotheses of each statement that has some. -/

namespace Sys2Proof.Tests

open Sys2Proof.Machine

/-- A small state: the reset state with some cells, pc and FL set. -/
def state (mem : Memory) (pc : Byte := 0) (fl : Byte := 0) : State := { State.reset with mem := mem, pc := pc, fl := fl }

/-- One observation of a next state; none when there is no next state. -/
def after {α : Type} (r : Result) (f : State → α) : Option α :=
  match r with
  | .next t => some (f t)
  | _ => none

/-- What the decoder reads from bytes, without the rest. -/
def read (bytes : List Byte) : Option Instr :=
  match decode bytes with
  | .ok (i, _) => some i
  | .error _ => none

/-! ## WellFormed smoke: each check refuses an ill-formed term -/

theorem test_wf_refuses_recognised_opcode : (Instr.unrecognised 0x01 none none).wellFormed = false := by decide
theorem test_wf_refuses_missing_operand : (Instr.unrecognised 0x65 none none).wellFormed = false := by decide
theorem test_wf_refuses_missing_second_operand : (Instr.unrecognised 0xA1 (some 1) none).wellFormed = false := by decide
theorem test_wf_refuses_extra_operand : (Instr.unrecognised 0x00 (some 1) none).wellFormed = false := by decide
theorem test_wf_admits_unrecognised : (Instr.unrecognised 0xC0 (some 1) (some 2)).wellFormed = true := by decide
theorem test_wf_admits_bad_register : (Instr.prn 0xFF).wellFormed = true := by decide

/-! ## A word of every constructor, from the patterns of R66 (and V-DEC for the unrecognised ones) -/

theorem test_word_hlt : read [0b00000001] = some .hlt := by decide
theorem test_word_ldi : read [0b10000010, 0, 8] = some (.ldi 0 8) := by decide
theorem test_word_prn : read [0b01000111, 0] = some (.prn 0) := by decide
theorem test_word_add : read [0b10100000, 1, 2] = some (.add 1 2) := by decide
theorem test_word_mul : read [0b10100010, 1, 2] = some (.mul 1 2) := by decide
theorem test_word_cmp : read [0b10100111, 1, 2] = some (.cmp 1 2) := by decide
theorem test_word_and : read [0b10101000, 1, 2] = some (.and 1 2) := by decide
theorem test_word_or : read [0b10101010, 1, 2] = some (.or 1 2) := by decide
theorem test_word_xor : read [0b10101011, 1, 2] = some (.xor 1 2) := by decide
theorem test_word_not : read [0b01101001, 3] = some (.not 3) := by decide
theorem test_word_push : read [0b01000101, 3] = some (.push 3) := by decide
theorem test_word_pop : read [0b01000110, 3] = some (.pop 3) := by decide
theorem test_word_call : read [0b01010000, 3] = some (.call 3) := by decide
theorem test_word_ret : read [0b00010001] = some .ret := by decide
theorem test_word_jmp : read [0b01010100, 3] = some (.jmp 3) := by decide
theorem test_word_jeq : read [0b01010101, 3] = some (.jeq 3) := by decide
theorem test_word_jne : read [0b01010110, 3] = some (.jne 3) := by decide
theorem test_word_unrecognised_1 : read [0x00] = some (.unrecognised 0x00 none none) := by decide
theorem test_word_unrecognised_2 : read [0x65, 9] = some (.unrecognised 0x65 (some 9) none) := by decide
theorem test_word_unrecognised_3 : read [0xC0, 9, 8] = some (.unrecognised 0xC0 (some 9) (some 8)) := by decide
theorem test_table_word : decodeTableWord 24 0x0201A0 = some (.add 1 2) := by decide
theorem test_table_word_short : decodeTableWord 8 0x82 = some (.ldi 0 0) := by decide
/-- R66, R68: 17 bytes, all different, are recognised; so 239 are not. -/
theorem test_recognised_count : Mnemonic.all.length = 17 ∧ (Mnemonic.all.map Mnemonic.opcode).Nodup := by decide

/-! ## One step of each instruction -/

/-- V-ALU: FF + 01 = 00. -/
theorem test_add_wraps : after (execAdd 0 1 ((State.reset.setReg 0 0xFF).setReg 1 1)) (fun t => (t.reg 0, t.pc)) =
    some (0x00, 3) := by decide
/-- V-ALU: ADD R0,R0 with 80. -/
theorem test_add_same : after (execAdd 0 0 (State.reset.setReg 0 0x80)) (fun t => t.reg 0) = some 0x00 := by decide
/-- V-ALU: FF * FF = 01. -/
theorem test_mul_low_byte : after (execMul 0 1 ((State.reset.setReg 0 0xFF).setReg 1 0xFF)) (fun t => t.reg 0) =
    some 0x01 := by decide
/-- V-ALU: 0F * 11 = FF. -/
theorem test_mul : after (execMul 0 1 ((State.reset.setReg 0 0x0F).setReg 1 0x11)) (fun t => t.reg 0) =
    some 0xFF := by decide
/-- V-ALU. -/
theorem test_and : after (execAnd 2 1 ((State.reset.setReg 2 0x0C).setReg 1 0x0A)) (fun t => (t.reg 2, t.reg 1)) =
    some (0x08, 0x0A) := by decide
/-- V-ALU, D15: not 08. -/
theorem test_or : after (execOr 3 1 ((State.reset.setReg 3 0x0C).setReg 1 0x0A)) (fun t => t.reg 3) = some 0x0E := by decide
/-- V-ALU, D15: not 08. -/
theorem test_xor : after (execXor 4 1 ((State.reset.setReg 4 0x0C).setReg 1 0x0A)) (fun t => t.reg 4) =
    some 0x06 := by decide
/-- V-ALU, D15. -/
theorem test_not : after (execNot 0 (State.reset.setReg 0 0x0C)) (fun t => (t.reg 0, t.pc)) = some (0xF3, 2) := by decide
/-- V-ALU. -/
theorem test_cmp_equal : after (execCmp 0 1 ((State.reset.setReg 0 5).setReg 1 5)) (fun t => (t.fl, t.reg 0)) =
    some (0x01, 5) := by decide
/-- V-ALU. -/
theorem test_cmp_unequal : after (execCmp 0 1 (state [] 0 0xFF)) (fun t => t.fl) = some 0x01 ∧
    after (execCmp 0 7 (state [] 0 0xFF)) (fun t => t.fl) = some 0x00 := by decide
/-- V-DIH. -/
theorem test_hlt : after (step (state [(5, 0x01)] 5)) (fun t => (t.runState, t.pc)) = some (.halted, 5) := by decide
/-- V-DIH, V-DEC: LDI R3,42 across the end of memory. -/
theorem test_ldi_wraps : after (step (state [(0, 3), (1, 0x2A), (255, 0x82)] 0xFF)) (fun t => (t.reg 3, t.pc)) =
    some (0x2A, 0x02) := by decide
/-- V-DIH. -/
theorem test_ldi_sp : after (execLdi 7 0x0A State.reset) (fun t => t.sp) = some 0x0A := by decide
/-- V-DIH. -/
theorem test_prn : after (execPrn 5 (State.reset.setReg 5 0xFF)) (fun t => (t.out, t.hostText)) =
    some ([0xFF], ['2', '5', '5', '\n']) := by decide
/-- V-STK. -/
theorem test_push_wraps : after (execPush 1 ((State.reset.setReg 7 0).setReg 1 0x2A)) (fun t => (t.sp, t.mem)) =
    some (0xFF, [(255, 0x2A)]) := by decide
/-- V-STK, D5. -/
theorem test_push_sp : after (execPush 7 State.reset) (fun t => (t.sp, memRead 0xF3 t)) = some (0xF3, 0xF3) := by decide
/-- V-STK. -/
theorem test_pop_wraps : after (execPop 3 ((state [(255, 0x2A)]).setReg 7 0xFF)) (fun t => (t.reg 3, t.sp)) =
    some (0x2A, 0x00) := by decide
/-- V-STK, D5. -/
theorem test_pop_sp : after (execPop 7 ((state [(0x10, 0x80)]).setReg 7 0x10)) (fun t => t.sp) = some 0x81 := by decide
/-- V-CTL: FE + 2 wraps. -/
theorem test_call_wraps : after (execCall 0 ((state [(0xF3, 9)] 0xFE).setReg 0 0x20))
    (fun t => (t.sp, memRead 0xF3 t, t.pc)) = some (0xF3, 0x00, 0x20) := by decide
/-- V-CTL, D5. -/
theorem test_call_sp : after (execCall 7 (state [] 0x30)) (fun t => (memRead 0xF3 t, t.pc)) = some (0x32, 0xF3) := by decide
/-- V-CTL. -/
theorem test_ret : after (execRet ((state [(0xFF, 0x40)]).setReg 7 0xFF)) (fun t => (t.pc, t.sp)) =
    some (0x40, 0x00) := by decide
/-- V-CTL. -/
theorem test_jmp : after (execJmp 3 (State.reset.setReg 3 0x0C)) (fun t => t.pc) = some 0x0C := by decide
/-- V-CTL. -/
theorem test_jeq : after (execJeq 2 ((state [] 0x12 1).setReg 2 0x17)) (fun t => t.pc) = some 0x17 ∧
    after (execJeq 2 ((state [] 0x12 0).setReg 2 0x17)) (fun t => t.pc) = some 0x14 := by decide
/-- V-CTL; and with FL = 02, where the precedence defect of C5 would not jump. -/
theorem test_jne : after (execJne 3 ((state [] 0x14 2).setReg 3 0x0C)) (fun t => t.pc) = some 0x0C ∧
    after (execJne 3 ((state [] 0x14 1).setReg 3 0x0C)) (fun t => t.pc) = some 0x16 := by decide
/-- V-UNK, with an operand of 9 that is not checked. -/
theorem test_unrecognised : after (step (state [(4, 0xA1), (5, 9)] 4)) (fun t => (t.diag, t.pc, t.runState)) =
    some ([⟨0xA1, 4⟩], 7, .running) := by decide
/-- V-UNK at FF. -/
theorem test_unrecognised_wraps : after (step (state [(255, 0x80)] 0xFF)) (fun t => (t.diag, t.pc)) =
    some ([⟨0x80, 0xFF⟩], 2) := by decide

/-! ## Faults, reset, image, assembler -/

/-- V-FLT: LDI with A = 8. -/
theorem test_fault_ldi : after (step (state [(0, 0x82), (1, 8), (2, 1)])) id =
    some { state [(0, 0x82), (1, 8), (2, 1)] with runState := .faulted, faultRecord := some ⟨8, 0⟩ } := by decide
/-- V-FLT: A first. -/
theorem test_fault_order : after (step (state [(0, 0xA0), (1, 0x0A), (2, 0x0B)])) (fun t => t.faultRecord) =
    some (some ⟨0x0A, 0⟩) := by decide
/-- V-FLT: JEQ not taken. -/
theorem test_fault_jeq : after (step (state [(0, 0x55), (1, 0xFF)])) (fun t => t.runState) = some .faulted := by decide
/-- R175. -/
theorem test_event_codes : (eventOf 4 (.unrecognised 0xA1 (some 9) none)).map Event.code = some 1 ∧
    (eventOf 0 (.add 0 9)).map Event.code = some 2 ∧ eventOf 0 .ret = none := by decide
/-- V-RST, with S1's image. -/
theorem test_reset_event : (resetEvent [0x82, 0x00, 0x08, 0x47, 0x00, 0x01] (state [(9, 9)] 7 1)).mem =
    [(0, 0x82), (2, 0x08), (3, 0x47), (5, 0x01)] := by decide
/-- R195: byte 256 goes over byte 0. -/
theorem test_image_wraps : memRead 0 (loadFrom 255 [7, 9] State.reset) = 9 := by decide
/-- S1's image lines, with a comment, a blank line and a trailing comment (R196, D14). -/
theorem test_image_text : imageOfText (['1', '0', '0', '0', '0', '0', '1', '0', ' ', '#', '\n', '#', '1', '\n', '\n'] ++
    ['0', '0', '0', '0', '1', '0', '0', '0']) = [0x82, 0x08] := by decide
/-- R71's example `LDI R7,0xF4` in its other spelling, and a second statement. -/
theorem test_assemble : assemble (['L', 'D', 'I', ' ', 'S', 'P', ',', '0', 'x', 'F', '4', ';', ' ', 'H', 'L', 'T']) =
    some [0x82, 7, 0xF4, 0x01] := by decide
/-- The host's view: a table word placed at pc runs as the first instruction. -/
theorem test_with_fetch_word : after (step (State.reset.withFetchWord 24 0x0800A0)) (fun t => t.faultRecord) =
    some (some ⟨8, 0⟩) := by decide

/-! ## Witnesses: states and operands that meet the hypotheses of the statements -/

theorem witness_ImageBytesPlaced_byte : ∃ (image : List Byte) (k : Nat), k < image.length ∧
    ∀ j, k < j → j < image.length → j % 256 ≠ k % 256 := by
  refine ⟨[1, 2], 0, by decide, fun j h hj => ?_⟩
  have hlt : j < 2 := hj
  omega
theorem witness_ImageBytesPlaced_uncovered : ∀ k, k < ([1, 2] : List Byte).length → k % 256 ≠ (255 : Byte).toNat := by decide
theorem witness_ImageLineReadsBinaryLiteral : [true] ≠ [] ∧ (∀ c, ['#'].head? = some c → isBinaryDigit c = false) ∧
    '\n' ∉ ['1', '#'] := by
  refine ⟨by decide, fun c h => ?_, by decide⟩
  cases h
  decide
/-- A run of one digit, and one of nine, mod 256 (R196, D14). -/
theorem test_image_line_lengths : imageLine ['1', ' ', '0'] = some 1 ∧
    imageLine ['1', '0', '0', '0', '0', '0', '0', '1', '1'] = some 3 := by decide
theorem witness_MemoryInterfaceWraps : (256 : Int) % 256 = 0 % 256 ∧ (-1 : Int) % 256 ≠ 0 % 256 := by decide
theorem witness_CanonicalMemories : Memory.wf [(0, 1), (255, 2)] := by decide
theorem witness_LengthFromTopTwoBits : (128#8).toNat ≥ 128 ∧ 64 ≤ (127#8).toNat ∧ (127#8).toNat < 128 ∧
    (63#8).toNat < 64 ∧ 192 ≤ (192#8).toNat := by decide
theorem witness_decode_ok : read [0xFF, 1, 2, 3] = some (.unrecognised 0xFF (some 1) (some 2)) := by decide
theorem witness_DecodeOfEncode : (Instr.unrecognised 0x00 none none).wellFormed = true ∧ Instr.ret.wellFormed = true := by
  decide
theorem witness_ByteStream_two_readings : read [0x47, 0x01] = some (.prn 1) ∧ read [0x47, 0x02] = some (.prn 2) ∧
    encode (.prn 1) ++ [5] = encode (.prn 1) ++ [5] := by decide
theorem witness_DecoderIsTotal : lengthOf 0x82 ≤ ([1, 2] : List Byte).length + 1 ∧
    ([1] : List Byte).length + 1 < lengthOf 0x82 := by decide
theorem witness_OtherOpcodes : opcodeMap 0x00 = none ∧ opcodeMap 0xFF = none := by decide
theorem witness_StepExecutes : (state [(0, 0xA2)] 0xFF).runState = .running ∧
    read [memReadAt 255 (state [(0, 0xA2)] 0xFF), memReadAt 256 (state [(0, 0xA2)] 0xFF), memReadAt 257 (state [] 0xFF)] =
      some (.unrecognised 0x00 none none) := by decide
theorem witness_StepHasNextState : State.reset.runState = .running ∧
    (haltWith .unchanged State.reset).runState = .halted ∧ (raiseBadRegister 8 State.reset).runState = .faulted := by decide
theorem witness_Halted : after (step (state [(0, 0x01)])) (fun t => t.runState) = some .halted := by decide
theorem witness_OutputText_zero : (decimal 0).head? = some '0' := by decide
theorem witness_RetAfterCall : after (execCall Reg.sp.toByte State.reset) (fun t => (t.sp, memRead t.sp t)) =
    some (0xF3, 2) := by decide
theorem witness_ConditionalJumps : (1#8).getLsbD 0 = true ∧ (0xFE#8).getLsbD 0 = false := by decide
theorem witness_Branch : after (execCmp 0 1 State.reset) (fun t => t.equal) = some true ∧
    State.reset.reg 0 = State.reset.reg 1 ∧ State.reset.reg 0 ≠ State.reset.reg 7 := by decide
theorem witness_DefaultAdvance : after (exec (.unrecognised 0 none none) State.reset) (fun t => t.pc) = some 1 ∧
    after (exec (.jeq 0) State.reset) (fun t => t.pc) = some 2 ∧ State.reset.equal = false ∧
    after (exec (.call 0) State.reset) (fun t => t.pc) = some 0 ∧ after (exec .ret State.reset) (fun t => t.pc) = some 0 ∧
    after (exec (.jmp 7) State.reset) (fun t => t.pc) = some 0xF4 ∧
    after (exec (.jne 7) State.reset) (fun t => t.pc) = some 0xF4 ∧ (state [] 0 1).equal = true := by decide
theorem witness_BadRegister : 8 ≤ (8#8).toNat ∧ (7#8).toNat < 8 ∧ 8 ≤ (255#8).toNat := by decide
theorem witness_OnlyBadRegister : after (exec (.add 7 8) State.reset) (fun t => t.runState) = some .faulted ∧
    State.reset.runState ≠ .faulted := by decide
theorem witness_StepEvent : after (step State.reset) (fun t => t.diag) = some [⟨0, 0⟩] ∧
    eventOf State.reset.pc (fetchInstr State.reset) = some (.diagUnknownOpcode 0 0) ∧
    eventOf 0 (fetchInstr (state [(0, 0x47), (1, 8)])) = some (.faultBadRegisterIndex 8 0) ∧
    eventOf 0 (fetchInstr (state [(0, 0x11)])) = none := by decide
theorem witness_OnlyCmp : (∀ a b, Instr.ret ≠ .cmp a b) ∧ after (exec .ret State.reset) (fun t => t.fl) = some 0 := by
  exact ⟨by simp, by decide⟩
theorem witness_OnlyEqualBit : (0xFE#8).getLsbD 0 = State.reset.fl.getLsbD 0 ∧
    after (exec (.jne 7) State.reset) (fun t => t.pc) = some 0xF4 := by decide
theorem witness_OnlyPushAndCall : (∀ a, Instr.ret ≠ .push a ∧ Instr.ret ≠ .call a) ∧
    after (exec (.push 7) State.reset) (fun t => t.mem) = some [(0xF3, 0xF3)] := ⟨by simp, by decide⟩
theorem witness_ExecutionReads : Memory.read [(0, 5)] State.reset.sp.toNat = memRead State.reset.sp State.reset ∧
    after (exec (.pop 7) State.reset) (fun t => t.sp) = some 1 ∧ (Instr.push 7).badRegister = none ∧
    after (exec (.push 7) State.reset) (fun t => t.sp) = some 0xF3 := by decide
theorem witness_Registers : (Instr.pop 7).badRegister = none ∧ 0 ∉ regsRead State.reset.equal (.pop 7) ∧
    after (exec (.pop 7) State.reset) (fun t => t.sp) = some 1 := by decide
theorem witness_OutputStreams : after (step (state [(0, 0x47), (1, 7)])) (fun t => t.out) = some [0xF4] := by decide
theorem witness_StoredByte_push_next : ((state [(0, 0x45)]).setReg 7 3).runState = .running ∧
    fetchInstr ((state [(0, 0x45)]).setReg 7 3) = .push (Reg.toByte 0) ∧ ((state [(0, 0x45)]).setReg 7 3).sp - 1 = 0 + 2 := by
  decide
theorem witness_StoredByte_push_own_operand : fetchInstr ((state [(0, 0x45)]).setReg 7 2) = .push (Reg.toByte 0) ∧
    ((state [(0, 0x45)]).setReg 7 2).sp - 1 = (state [(0, 0x45)]).pc + 1 := by decide
theorem witness_StoredByte_call_at_target : fetchInstr (state [(0, 0x50), (1, 7)]) = .call (Reg.toByte 7) ∧
    (state [(0, 0x50), (1, 7)]).runState = .running := by decide
theorem witness_StoredByte_call_own_opcode : fetchInstr ((state [(0, 0x50)]).setReg 7 1) = .call (Reg.toByte 0) ∧
    ((state [(0, 0x50)]).setReg 7 1).sp - 1 = (state [(0, 0x50)]).pc := by decide

/-- A running state that meets the invariant and steps. -/
theorem witness_StepKeepsInvariant : (state [(0, 0x45)]).Inv ∧ after (step (state [(0, 0x45)])) (fun t => t.mem) =
    some [(0, 0x45)] :=
  ⟨{ memory := by decide, flags := by decide, reports := by decide, fault := rfl }, by decide⟩

/-- A stopped state that meets the invariant: FAULTED at an LDI with A = 8. -/
theorem witness_Inv_faulted : (raiseBadRegister 8 (state [(0, 0x82), (1, 8)])).Inv :=
  { memory := by decide, flags := by decide, reports := by decide, fault := ⟨rfl, by decide⟩ }

/-- A running program, HLT at 0, whose every fetched instruction has legal operands. -/
theorem witness_LegalOperandsKeepRunSafe : (state [(0, 0x01)]).runState ≠ .faulted ∧
    ∀ t, Reaches (state [(0, 0x01)]) t → t.runState = .running → ∀ r ∈ (fetchInstr t).registerOperands, r.toNat < 8 := by
  refine ⟨by decide, fun t h => ?_⟩
  have hreach : t = state [(0, 0x01)] ∨ t.runState = .halted := by
    induction h with
    | refl => exact .inl rfl
    | tail _ hstep ih =>
      rcases ih with rfl | hhalted
      · cases hstep
        exact .inr rfl
      · simp [step, hhalted] at hstep
  rcases hreach with rfl | hhalted
  · intro _ r hr
    have hnil : (fetchInstr (state [(0, 0x01)])).registerOperands = [] := by decide
    have hmem : r ∈ (fetchInstr (state [(0, 0x01)])).registerOperands := hr
    rw [hnil] at hmem
    cases hmem
  · intro hrun
    rw [hhalted] at hrun
    cases hrun

end Sys2Proof.Tests
end

/-! ## The length of what the decoder reads (R7, R61, R67) -/

namespace Sys2Proof

theorem lengthOf_of_opcodeMap {op : Byte} {m : Mnemonic} (h : opcodeMap op = some m) :
    lengthOf op = m.format.length := by
  rw [lengthOf, formatOf_of_opcodeMap h]

/-! A recognised instruction has its row's length, which is the one its opcode byte announces (R67); a row of another
format reads as unrecognised, whose length is `lengthOf op` by definition. So no hypothesis on the format is needed. -/

theorem decodeF0_length (op : Byte) : (decodeF0 op).length = lengthOf op := by
  cases hop : opcodeMap op with
  | none => rw [decodeF0_unrecognised hop, Instr.length]
  | some m =>
    rw [lengthOf_of_opcodeMap hop]
    cases m <;> simp [decodeF0, hop, Instr.length, lengthOf_of_opcodeMap hop, Mnemonic.format, Format.length]

theorem decodeF1_length (op a : Byte) : (decodeF1 op a).length = lengthOf op := by
  cases hop : opcodeMap op with
  | none => rw [decodeF1_unrecognised hop, Instr.length]
  | some m =>
    rw [lengthOf_of_opcodeMap hop]
    cases m <;> simp [decodeF1, hop, Instr.length, lengthOf_of_opcodeMap hop, Mnemonic.format, Format.length]

theorem decodeF2_length (op a b : Byte) : (decodeF2 op a b).length = lengthOf op := by
  cases hop : opcodeMap op with
  | none => rw [decodeF2_unrecognised hop, Instr.length]
  | some m =>
    rw [lengthOf_of_opcodeMap hop]
    cases m <;> simp [decodeF2, hop, Instr.length, lengthOf_of_opcodeMap hop, Mnemonic.format, Format.length]

/-- What the decoder takes: the opcode byte, and the operand bytes that make up the length it announces (R61, R62). -/
theorem decode_ok_takes_operands {bytes rest : List Byte} {i : Instr} (h : decode bytes = .ok (i, rest)) :
    ∃ (op : Byte) (operands : List Byte), bytes = op :: operands ++ rest ∧ lengthOf op = 1 + operands.length ∧
      i.length = lengthOf op := by
  obtain ⟨op, ⟨hf, rfl, rfl⟩ | ⟨a, hf, rfl, rfl⟩ | ⟨a, b, hf, rfl, rfl⟩⟩ := decode_ok_cases h
  · exact ⟨op, [], rfl, by rw [lengthOf, hf]; rfl, decodeF0_length op⟩
  · exact ⟨op, [a], rfl, by rw [lengthOf, hf]; rfl, decodeF1_length op a⟩
  · exact ⟨op, [a, b], rfl, by rw [lengthOf, hf]; rfl, decodeF2_length op a b⟩

/-- Settles O9: the operand bytes taken make up the announced length, which is at most 3. -/
theorem instructionIsOneToThreeBytes : Obligations.InstructionIsOneToThreeBytes := by
  intro bytes i rest h
  obtain ⟨op, operands, hbytes, htaken, hlen⟩ := decode_ok_takes_operands h
  have hmax : lengthOf op ≤ 3 := (lengthOf_pos op).2
  exact ⟨op, operands, hbytes, by omega, hlen.trans htaken⟩

end Sys2Proof

/-! ## Loading an image (R23, R25, R195) -/

namespace Sys2Proof.Machine

/-- Placing bytes changes memory alone. -/
theorem loadFrom_eq_with_mem (k : Nat) (image : List Byte) (s : State) :
    loadFrom k image s = { s with mem := (loadFrom k image s).mem } := by
  induction image generalizing k s with
  | nil => rfl
  | cons v vs ih => exact ih (k + 1) (memWriteAt k v.toNat s)

theorem loadImage_eq_with_mem (image : List Byte) (s : State) :
    loadImage image s = { s with mem := (loadImage image s).mem } := loadFrom_eq_with_mem 0 image s

@[simp] theorem loadImage_reg (image : List Byte) (s : State) (r : Reg) : (loadImage image s).reg r = s.reg r := by
  rw [loadImage_eq_with_mem]; rfl

@[simp] theorem loadImage_pc (image : List Byte) (s : State) : (loadImage image s).pc = s.pc := by
  rw [loadImage_eq_with_mem]

theorem reset_reg (r : Reg) : State.reset.reg r = if r = 7 then 0xF4#8 else 0#8 := by
  revert r; decide

/-- Settles O1: an image changes memory alone, so registers and pc are those of the reset state. -/
theorem resetRegistersAndPc : Obligations.ResetRegistersAndPc := fun image =>
  ⟨fun r => (loadImage_reg image State.reset r).trans (reset_reg r), loadImage_pc image State.reset⟩

end Sys2Proof.Machine

/-! ## What is decoded is well-formed (R62, R66, R68) -/

namespace Sys2Proof

/-- A row of the table in the format that its opcode byte announces reads as its own instruction, so only a byte outside
the table reads as unrecognised, and then with the operand bytes of its format. -/
theorem wellFormed_of_decode_ok {bytes rest : List Byte} {i : Instr} (h : decode bytes = .ok (i, rest)) :
    i.wellFormed = true := by
  obtain ⟨op, hcase⟩ := decode_ok_cases h
  cases hop : opcodeMap op with
  | none =>
    rcases hcase with ⟨hf, -, rfl⟩ | ⟨a, hf, -, rfl⟩ | ⟨a, b, hf, -, rfl⟩
    · simp [decodeF0_unrecognised hop, Instr.wellFormed, hop, hf, Format.admits]
    · simp [decodeF1_unrecognised hop, Instr.wellFormed, hop, hf, Format.admits]
    · simp [decodeF2_unrecognised hop, Instr.wellFormed, hop, hf, Format.admits]
  | some m =>
    have hm : formatOf op = m.format := formatOf_of_opcodeMap hop
    rcases hcase with ⟨hf, -, rfl⟩ | ⟨a, hf, -, rfl⟩ | ⟨a, b, hf, -, rfl⟩ <;> rw [hf] at hm
    · cases m <;> simp [Mnemonic.format] at hm <;> simp [decodeF0, hop, Instr.wellFormed]
    · cases m <;> simp [Mnemonic.format] at hm <;> simp [decodeF1, hop, Instr.wellFormed]
    · cases m <;> simp [Mnemonic.format] at hm <;> simp [decodeF2, hop, Instr.wellFormed]

namespace Machine

theorem fetchInstr_wellFormed (s : State) : (fetchInstr s).wellFormed = true := by
  obtain ⟨rest, h⟩ := decode_bytes_at_pc s
  exact wellFormed_of_decode_ok h

/-- A fetched unrecognised instruction has an opcode byte outside the table (R68). -/
theorem opcodeMap_of_fetchInstr_unrecognised {s : State} {op : Byte} {x y : Option Byte}
    (h : fetchInstr s = .unrecognised op x y) : opcodeMap op = none := by
  have hwf := fetchInstr_wellFormed s
  rw [h, Instr.wellFormed, Bool.and_eq_true, Option.isNone_iff_eq_none] at hwf
  exact hwf.1

end Machine

end Sys2Proof

/-! ## What a legal step does to each component of the state -/

namespace Sys2Proof.Machine

variable {i : Instr} {s t : State}

theorem LegalStep.faultRecord_eq (h : LegalStep i s t) : t.faultRecord = s.faultRecord := by
  cases h <;> rfl

/-- Only HLT changes the run state of a legal step (R84). -/
theorem LegalStep.runState_cases (h : LegalStep i s t) :
    (i = .hlt ∧ t.runState = .halted) ∨ t.runState = s.runState := by
  cases h
  case hlt => exact .inl ⟨rfl, haltWith_runState s _⟩
  all_goals exact .inr rfl

/-- Only CMP writes FL, and it writes E alone (R28). -/
theorem LegalStep.fl_cases (h : LegalStep i s t) :
    (∃ a b e, i = .cmp a b ∧ t.fl = flagsByte Config.flEBit e) ∨ t.fl = s.fl := by
  cases h
  case cmp => exact .inl ⟨_, _, _, rfl, rfl⟩
  all_goals exact .inr rfl

/-- Only PUSH and CALL write memory: one byte, in the cell below SP (R44). -/
theorem LegalStep.mem_cases (h : LegalStep i s t) :
    (∃ a v, (i = .push a ∨ i = .call a) ∧ t.mem = s.mem.write (s.sp - 1).toNat v) ∨ t.mem = s.mem := by
  cases h
  case push ra => exact .inl ⟨ra.toByte, (decSp s).reg ra, .inl rfl, by simp⟩
  case call ra => exact .inl ⟨ra.toByte, s.pc + 2, .inr rfl, by simp⟩
  all_goals exact .inr rfl

/-! ## The output streams (R33) -/

/-- The values that an instruction appends to `out` (R122). -/
def printedValues (i : Instr) (s : State) : List Byte :=
  match i with
  | .prn a => (registerOf a).toList.map s.reg
  | _ => []

/-- The reports that an instruction appends to `diag` (R160). -/
def emittedReports (i : Instr) (s : State) : List Report :=
  match i with
  | .unrecognised op _ _ => [⟨op, s.pc⟩]
  | _ => []

theorem printedValues_cases (i : Instr) (s : State) :
    printedValues i s = [] ∨ ∃ r : Reg, i = .prn r.toByte ∧ printedValues i s = [s.reg r] := by
  cases i
  case prn a =>
    rcases byte_register_or_bad a with ⟨r, rfl⟩ | hbad
    · exact .inr ⟨r, rfl, by simp [printedValues]⟩
    · exact .inl (by simp [printedValues, registerOf_bad hbad])
  all_goals exact .inl rfl

theorem emittedReports_cases (i : Instr) (s : State) :
    emittedReports i s = [] ∨ ∃ op x y, i = .unrecognised op x y ∧ emittedReports i s = [⟨op, s.pc⟩] := by
  cases i
  case unrecognised op x y => exact .inr ⟨op, x, y, rfl, rfl⟩
  all_goals exact .inl rfl

theorem printedValues_of_badRegister {r : Byte} (h : i.badRegister = some r) (s : State) : printedValues i s = [] := by
  rcases printedValues_cases i s with hnil | ⟨q, rfl, -⟩
  · exact hnil
  · rw [(LegalStep.prn q s).badRegister] at h
    cases h

theorem emittedReports_of_badRegister {r : Byte} (h : i.badRegister = some r) (s : State) :
    emittedReports i s = [] := by
  rcases emittedReports_cases i s with hnil | ⟨op, x, y, rfl, -⟩
  · exact hnil
  · cases h

/-- The streams are not read: with other contents the same instruction does the same, and appends the same. -/
theorem LegalStep.with_streams (h : LegalStep i s t) (out : List Byte) (diag : List Report) :
    LegalStep i { s with out := out, diag := diag }
      { t with out := out ++ printedValues i s, diag := diag ++ emittedReports i s } := by
  cases h <;> simp only [printedValues, emittedReports, List.append_nil, registerOf_toByte, Option.toList_some,
    List.map_cons, List.map_nil]
  case jeq_taken he | jeq_not_taken he | jne_taken he | jne_not_taken he =>
    constructor
    exact he
  all_goals constructor

theorem exec_with_streams (h : exec i s = .next t) (out : List Byte) (diag : List Report) :
    exec i { s with out := out, diag := diag } =
      .next { t with out := out ++ printedValues i s, diag := diag ++ emittedReports i s } := by
  rcases exec_cases h with ⟨r, hbad, rfl⟩ | hlegal
  · rw [printedValues_of_badRegister hbad, emittedReports_of_badRegister hbad, List.append_nil, List.append_nil]
    exact exec_of_badRegister hbad _
  · exact (hlegal.with_streams out diag).exec_eq

/-- What an execution appends: `exec_with_streams` at the streams the state has. -/
theorem exec_appends (h : exec i s = .next t) :
    t.out = s.out ++ printedValues i s ∧ t.diag = s.diag ++ emittedReports i s := by
  have hsame := Host.Outcome.next.inj (h.symm.trans (exec_with_streams h s.out s.diag))
  exact ⟨congrArg State.out hsame, congrArg State.diag hsame⟩

/-- The fetch reads neither stream, so a step appends what its execution appends. -/
theorem step_with_streams (h : step s = .next t) (out : List Byte) (diag : List Report) :
    step { s with out := out, diag := diag } =
      .next { t with
        out := out ++ printedValues (fetchInstr s) s
        diag := diag ++ emittedReports (fetchInstr s) s } := by
  obtain ⟨hrun, hexec⟩ := step_next h
  rw [step_running (s := { s with out := out, diag := diag }) hrun, fetchInstr_congr (s := s) rfl rfl]
  exact exec_with_streams hexec out diag

/-- Settles O50: the appended lists are `printedValues` and `emittedReports` of the fetched instruction. -/
theorem outputStreamsAreAppendOnlyAndNeverRead : Obligations.OutputStreamsAreAppendOnlyAndNeverRead := by
  refine ⟨rfl, rfl, fun s t hstep => ?_⟩
  obtain ⟨hout, hdiag⟩ := exec_appends (step_next hstep).2
  exact ⟨printedValues (fetchInstr s) s, emittedReports (fetchInstr s) s, hout, hdiag, printedValues_cases _ s,
    emittedReports_cases _ s, step_with_streams hstep⟩

/-! ## The invariant (R27, R40, R161, R174, R177): each clause is kept on its own -/

theorem LegalStep.mem_wf (h : LegalStep i s t) (hs : s.mem.wf) : t.mem.wf := by
  rcases h.mem_cases with ⟨a, v, -, hmem⟩ | hmem <;> rw [hmem]
  · exact Memory.wf_write hs (s.sp - 1).isLt v
  · exact hs

theorem flagsByte_other_bits (bit : Fin 8) (e : Bool) (k : Fin 8) (h : k ≠ bit) :
    (flagsByte bit e).getLsbD k.val = false := by
  revert bit e k; decide

theorem LegalStep.flagsReserved (h : LegalStep i s t) (hs : s.flagsReserved) : t.flagsReserved := by
  intro k hk
  rcases h.fl_cases with ⟨a, b, e, -, hfl⟩ | hfl <;> rw [hfl]
  · exact flagsByte_other_bits _ e k hk
  · exact hs k hk

theorem opcodeMap_of_mem_emittedReports {r : Report} (h : r ∈ emittedReports (fetchInstr s) s) :
    opcodeMap r.opcode = none := by
  rcases emittedReports_cases (fetchInstr s) s with hnil | ⟨op, x, y, hfetch, hone⟩
  · rw [hnil] at h
    cases h
  · rw [hone, List.mem_singleton] at h
    exact h ▸ opcodeMap_of_fetchInstr_unrecognised hfetch

theorem reportsUnrecognised_of_exec (h : exec (fetchInstr s) s = .next t) (hs : s.reportsUnrecognised) :
    t.reportsUnrecognised := by
  intro r hr
  rw [(exec_appends h).2, List.mem_append] at hr
  exact hr.elim (hs r) opcodeMap_of_mem_emittedReports

theorem State.faultPrecise_iff_of_not_faulted (h : s.runState ≠ .faulted) :
    s.faultPrecise ↔ s.faultRecord = none := by
  unfold State.faultPrecise
  split <;> simp_all

/-- The state of a fault still has the faulting instruction at pc. -/
theorem faultPrecise_raiseBadRegister {r : Byte} (h : (fetchInstr s).badRegister = some r) :
    (raiseBadRegister r s).faultPrecise :=
  ⟨rfl, (fetchInstr_raiseBadRegister r s).symm ▸ h⟩

/-- A legal step from RUNNING enters no FAULTED and records nothing. -/
theorem LegalStep.faultPrecise (h : LegalStep i s t) (hrun : s.runState = .running) (hs : s.faultPrecise) :
    t.faultPrecise := by
  have hnone : s.faultRecord = none := (State.faultPrecise_iff_of_not_faulted (by simp [hrun])).mp hs
  have hstate : t.runState ≠ .faulted := by
    rcases h.runState_cases with ⟨-, ht⟩ | ht <;> simp [ht, hrun]
  exact (State.faultPrecise_iff_of_not_faulted hstate).mpr (h.faultRecord_eq.trans hnone)

/-- Settles O52: a fault keeps memory, FL and `diag` and is precise; a legal step keeps each clause. -/
theorem stepKeepsInvariant : Obligations.StepKeepsInvariant := by
  intro s t hinv hstep
  obtain ⟨hrun, hexec⟩ := step_next hstep
  have hreports : t.reportsUnrecognised := reportsUnrecognised_of_exec hexec hinv.reports
  rcases exec_cases hexec with ⟨r, hbad, rfl⟩ | hlegal
  · exact ⟨hinv.memory, hinv.flags, hreports, faultPrecise_raiseBadRegister hbad⟩
  · exact ⟨hlegal.mem_wf hinv.memory, hlegal.flagsReserved hinv.flags, hreports,
      hlegal.faultPrecise hrun hinv.fault⟩

/-! ## The flags register (R28) -/

/-- Settles O45: a fault keeps FL, and so does every legal step but CMP's. -/
theorem onlyCmpWritesFlags : Obligations.OnlyCmpWritesFlags := by
  intro i s t hcmp hexec
  rcases exec_cases hexec with ⟨r, -, rfl⟩ | hlegal
  · rfl
  · rcases hlegal.fl_cases with ⟨a, b, e, hi, -⟩ | hfl
    · exact absurd hi (hcmp a b)
    · exact hfl

/-- With another FL byte of the same E the same legal step happens: JEQ and JNE take the same way, CMP writes all of FL,
and any other instruction keeps the byte. -/
theorem LegalStep.with_fl (h : LegalStep i s t) {f : Byte} (hf : f.getLsbD 0 = s.fl.getLsbD 0) :
    ∃ g : Byte, LegalStep i { s with fl := f } { t with fl := g } ∧ g.getLsbD 0 = t.fl.getLsbD 0 := by
  cases h
  case cmp ra rb => exact ⟨_, .cmp ra rb _, rfl⟩
  case jeq_taken he => exact ⟨f, .jeq_taken _ _ (hf.trans he), hf⟩
  case jeq_not_taken he => exact ⟨f, .jeq_not_taken _ _ (hf.trans he), hf⟩
  case jne_taken he => exact ⟨f, .jne_taken _ _ (hf.trans he), hf⟩
  case jne_not_taken he => exact ⟨f, .jne_not_taken _ _ (hf.trans he), hf⟩
  all_goals exact ⟨f, by constructor, hf⟩

/-- Settles O46. -/
theorem onlyEqualBitIsObservable : Obligations.OnlyEqualBitIsObservable := by
  intro i s t f hf hexec
  rcases exec_cases hexec with ⟨r, hbad, rfl⟩ | hlegal
  · exact ⟨_, exec_of_badRegister hbad _, rfl, hf⟩
  · obtain ⟨g, hstep, hg⟩ := hlegal.with_fl hf
    exact ⟨_, hstep.exec_eq, rfl, hg⟩

/-! ## The registers read and written (R21) -/

/-- With legal operands an execution is a legal step. -/
theorem legalStep_of_exec (hlegal : i.badRegister = none) (h : exec i s = .next t) : LegalStep i s t := by
  rcases exec_cases h with ⟨r, hbad, -⟩ | hstep
  · rw [hlegal] at hbad
    cases hbad
  · exact hstep

theorem LegalStep.keepsRegisters (h : LegalStep i s t) : KeepsRegisters (regsWritten i) s t := by
  intro q hq
  cases h
  case ldi | add | mul | and | or | xor | not | push | call | ret =>
    exact State.reg_setReg_other s (by simpa [regsWritten] using hq) _
  case pop ra =>
    obtain ⟨hra, hsp⟩ : q ≠ ra ∧ q ≠ Reg.sp := by simpa [regsWritten] using hq
    exact (State.reg_setReg_other _ hsp _).trans (State.reg_setReg_other s hra _)
  all_goals rfl

section

variable (s : State) (r : Reg) (v : Byte)

/-! A write to a register before an operation that neither reads nor writes it is one after it. -/

theorem State.setReg_advance (n : Nat) : (s.advance n).setReg r v = (s.setReg r v).advance n := rfl

theorem State.setReg_jump (a : Byte) : (s.jump a).setReg r v = (s.setReg r v).jump a := rfl

theorem State.setReg_setEqual (e : Bool) : (s.setEqual e).setReg r v = (s.setReg r v).setEqual e := rfl

theorem State.setReg_memWrite (a w : Byte) : (memWrite a w s).setReg r v = memWrite a w (s.setReg r v) := rfl

theorem State.setReg_emitOut (w : Byte) : (emitOut w s).setReg r v = emitOut w (s.setReg r v) := rfl

theorem State.setReg_emitDiag (op a : Byte) : (emitDiag op a s).setReg r v = emitDiag op a (s.setReg r v) := rfl

theorem State.setReg_haltWith (p : Config.PcAfterHalt) : (haltWith p s).setReg r v = haltWith p (s.setReg r v) := by
  cases p <;> rfl

end

/-- Only LDI and POP write a register that they do not read, and what they write does not depend on it. -/
theorem LegalStep.setReg_of_written (h : LegalStep i s t) {r : Reg} (v : Byte) (hread : r ∉ regsRead s.equal i)
    (hwritten : r ∈ regsWritten i) : LegalStep i (s.setReg r v) t := by
  cases h
  case ldi ra imm =>
    obtain rfl : r = ra := by simpa [regsWritten] using hwritten
    simpa using LegalStep.ldi r imm (s.setReg r v)
  case pop ra =>
    have hsp : Reg.sp ≠ r := fun h => hread (by simp [regsRead, h])
    obtain rfl : r = ra := by simpa [regsWritten, hsp.symm] using hwritten
    simpa [State.reg_setReg_other _ hsp] using LegalStep.pop r (s.setReg r v)
  all_goals simp_all [regsRead, regsWritten]

/-- A register neither read nor written: the same legal step happens from the changed state, and each of its reads and
writes commutes with the change. -/
theorem LegalStep.setReg_of_unwritten (h : LegalStep i s t) {r : Reg} (v : Byte) (hread : r ∉ regsRead s.equal i)
    (hwritten : r ∉ regsWritten i) : LegalStep i (s.setReg r v) (t.setReg r v) := by
  have hreg (u : State) {q : Reg} (hq : ¬r = q) : (u.setReg r v).reg q = u.reg q :=
    State.reg_setReg_other u (Ne.symm hq) v
  have hset (u : State) {q : Reg} (hq : ¬r = q) (w : Byte) : (u.setReg r v).setReg q w = (u.setReg q w).setReg r v :=
    State.setReg_comm u hq v w
  suffices ∃ u, LegalStep i (s.setReg r v) u ∧ u = t.setReg r v by
    obtain ⟨u, hu, rfl⟩ := this
    exact hu
  cases h
  case jeq_taken ra he =>
    have hra : ¬r = ra := by simpa [regsRead, he] using hread
    exact ⟨_, .jeq_taken ra _ he, by rw [hreg s hra, State.setReg_jump]⟩
  case jne_taken ra he =>
    have hra : ¬r = ra := by simpa [regsRead, he] using hread
    exact ⟨_, .jne_taken ra _ he, by rw [hreg s hra, State.setReg_jump]⟩
  case jeq_not_taken ra he => exact ⟨_, .jeq_not_taken ra _ he, rfl⟩
  case jne_not_taken ra he => exact ⟨_, .jne_not_taken ra _ he, rfl⟩
  all_goals
    simp only [regsRead, regsWritten, registerOf_toByte, Option.toList_some, List.mem_append, List.mem_cons,
      List.not_mem_nil, or_false, not_or] at hread hwritten
    refine ⟨_, by constructor, ?_⟩
    simp [State.setReg_advance, State.setReg_jump, State.setReg_setEqual, State.setReg_memWrite, State.setReg_emitOut,
      State.setReg_emitDiag, State.setReg_haltWith, hreg, hset, hread, hwritten]

/-- Settles O49: legal operands make a legal step, and the changed register is written or unwritten. -/
theorem registersReadAndWrittenAreThoseListed : Obligations.RegistersReadAndWrittenAreThoseListed := by
  intro i s t hlegal hexec
  have hstep : LegalStep i s t := legalStep_of_exec hlegal hexec
  refine ⟨hstep.keepsRegisters, fun r v hread => ?_⟩
  split
  · next hwritten => exact (hstep.setReg_of_written v hread hwritten).exec_eq
  · next hwritten => exact (hstep.setReg_of_unwritten v hread hwritten).exec_eq

end Sys2Proof.Machine

/-! ## The memory interface (R11, R41) -/

namespace Sys2Proof.Machine

theorem wrap_toNat_eq_emod (v : Int) : ((wrap v).toNat : Int) = v % 256 := by
  rw [wrap, BitVec.toNat_ofInt]
  exact Int.toNat_of_nonneg (Int.emod_nonneg v (by decide))

theorem wrap_eq_iff (a b : Int) : wrap a = wrap b ↔ a % 256 = b % 256 := by
  rw [← wrap_toNat_eq_emod, ← wrap_toNat_eq_emod, Int.natCast_inj, BitVec.toNat_inj]

theorem memReadAt_congr {a b : Int} (h : a % 256 = b % 256) (s : State) : memReadAt a s = memReadAt b s := by
  rw [memReadAt, memReadAt, (wrap_eq_iff a b).mpr h]

/-- Settles O5: addresses wrap alike exactly when they agree mod 256. -/
theorem memoryInterfaceWraps : Obligations.MemoryInterfaceWraps := by
  intro a b v s
  refine ⟨memReadAt_congr (Int.emod_emod a 256).symm s, memReadAt_congr rfl s, memReadAt_congr rfl s, ?_, ?_⟩
  · intro h
    rw [memReadAt_congr h, memReadAt, memWriteAt, memRead_memWrite_same, wrap_toNat_eq_emod]
  · intro h
    exact memRead_memWrite_other (mt (wrap_eq_iff b a).mp h) _ s

/-! ## Sequences of writes (R42) -/

/-- Writes of a byte each, `(address, value)`, the first in the list first. -/
def memWriteAll (writes : List (Byte × Byte)) (s : State) : State :=
  writes.foldl (fun t w => memWrite w.1 w.2 t) s

theorem memWriteAll_concat (writes : List (Byte × Byte)) (w : Byte × Byte) (s : State) :
    memWriteAll (writes ++ [w]) s = memWrite w.1 w.2 (memWriteAll writes s) := by
  simp [memWriteAll]

theorem memWriteAll_eq_with_mem (writes : List (Byte × Byte)) (s : State) :
    memWriteAll writes s = { s with mem := (memWriteAll writes s).mem } := by
  induction writes using List.reverseRecOn with
  | nil => rfl
  | append_singleton writes w ih =>
    rw [memWriteAll_concat, ih]
    rfl

/-- The last write of the sequence decides the read if it goes to the cell; else the earlier ones do. -/
theorem memRead_memWriteAll (writes : List (Byte × Byte)) (a : Byte) (s : State) :
    memRead a (memWriteAll writes s) =
      (((writes.filter fun w => w.1 == a).getLast?).map Prod.snd).getD (memRead a s) := by
  induction writes using List.reverseRecOn with
  | nil => rfl
  | append_singleton writes w ih =>
    rw [memWriteAll_concat, memRead_memWrite]
    by_cases hw : a = w.1
    · simp [hw]
    · simp [hw, Ne.symm hw, ih]

/-- Settles O6. -/
theorem readReturnsLatestWrite : Obligations.ReadReturnsLatestWrite := fun writes a s =>
  ⟨memRead_memWriteAll writes a s, _, memWriteAll_eq_with_mem writes s⟩

/-! ## The canonical form (R40, R43) -/

theorem Memory.mem_of_read_ne_zero {m : Memory} {a : Nat} (h : m.read a ≠ 0) : (a, m.read a) ∈ m := by
  induction m with
  | nil => exact absurd rfl h
  | cons c m ih =>
    obtain ⟨k, w⟩ := c
    rw [Memory.read_cons] at h ⊢
    by_cases hk : a = k
    · simp [hk]
    · simp only [hk, if_false] at h ⊢
      exact List.mem_cons_of_mem _ (ih h)

/-- In rising order no entry hides another. -/
theorem Memory.read_of_mem {m : Memory} (hm : m.Pairwise fun c d => c.1 < d.1) {c : Host.Cell} (h : c ∈ m) :
    m.read c.1 = c.2 := by
  induction m with
  | nil => cases h
  | cons d m ih =>
    obtain ⟨hhead, htail⟩ := List.pairwise_cons.mp hm
    rw [Memory.read_cons]
    rcases List.mem_cons.mp h with rfl | hc
    · exact if_pos rfl
    · rw [if_neg (hhead c hc).ne', ih htail hc]

/-- A canonical memory lists exactly its nonzero cells, so its reads determine its entries. -/
theorem Memory.mem_iff_read {m : Memory} (hm : m.wf) (c : Host.Cell) :
    c ∈ m ↔ c.1 < 256 ∧ c.2 ≠ 0 ∧ m.read c.1 = c.2 := by
  obtain ⟨hsorted, hcells⟩ := hm
  constructor
  · intro hc
    obtain ⟨haddr, hvalue⟩ := hcells c hc
    exact ⟨haddr, hvalue, Memory.read_of_mem hsorted hc⟩
  · rintro ⟨-, hvalue, hread⟩
    rw [← hread] at hvalue
    simpa [hread] using Memory.mem_of_read_ne_zero hvalue

/-- Two lists in strictly rising order of address with the same entries are the same list. -/
theorem Memory.eq_of_mem_iff {m n : Memory} (hm : m.wf) (hn : n.wf) (h : ∀ c, c ∈ m ↔ c ∈ n) : m = n :=
  have : Std.Antisymm fun c d : Host.Cell => c.1 < d.1 := ⟨fun _ _ hcd hdc => absurd hdc hcd.asymm⟩
  have : Std.Irrefl fun c d : Host.Cell => c.1 < d.1 := ⟨fun c => lt_irrefl c.1⟩
  hm.1.eq_of_mem_iff hn.1 h

/-- Settles O7: equal reads at the addresses of the address space make equal entries. -/
theorem canonicalMemoriesWithEqualReadsAreEqual : Obligations.CanonicalMemoriesWithEqualReadsAreEqual := by
  intro m n hm hn hread
  refine Memory.eq_of_mem_iff hm hn fun c => ?_
  rw [Memory.mem_iff_read hm, Memory.mem_iff_read hn]
  refine and_congr_right fun hc => ?_
  have hcell : m.read c.1 = n.read c.1 := by simpa [Nat.mod_eq_of_lt hc] using hread (BitVec.ofNat 8 c.1)
  rw [hcell]

/-! ## Where image bytes go (R43, R195) -/

theorem loadFrom_cons (k : Nat) (v : Byte) (vs : List Byte) (s : State) :
    loadFrom k (v :: vs) s = loadFrom (k + 1) vs (memWrite (BitVec.ofNat 8 k) v s) := by
  rw [loadFrom, memWriteAt, wrap_natCast, wrap_toNat]

/-- A cell to which no byte of the image goes keeps its byte. -/
theorem memRead_loadFrom_uncovered {image : List Byte} {k : Nat} {a : Byte}
    (h : ∀ j < image.length, BitVec.ofNat 8 (k + j) ≠ a) (s : State) :
    memRead a (loadFrom k image s) = memRead a s := by
  induction image generalizing k s with
  | nil => rfl
  | cons v vs ih =>
    have hhead : a ≠ BitVec.ofNat 8 k := (h 0 (by simp)).symm
    have htail : ∀ j < vs.length, BitVec.ofNat 8 (k + 1 + j) ≠ a := fun j hj =>
      Nat.add_right_comm k j 1 ▸ h (j + 1) (by simpa using hj)
    rw [loadFrom_cons, ih htail, memRead_memWrite_other hhead]

theorem loadFrom_append (k : Nat) (xs ys : List Byte) (s : State) :
    loadFrom k (xs ++ ys) s = loadFrom (k + xs.length) ys (loadFrom k xs s) := by
  induction xs generalizing k s with
  | nil => rfl
  | cons x xs ih =>
    rw [List.cons_append, loadFrom_cons, loadFrom_cons, ih, List.length_cons, Nat.add_right_comm, Nat.add_assoc]

/-- A byte stays in its cell when every later byte of the image goes elsewhere. -/
theorem memRead_loadImage_last {image : List Byte} {k : Nat} (hk : k < image.length)
    (h : ∀ j, k < j → j < image.length → BitVec.ofNat 8 j ≠ BitVec.ofNat 8 k) (s : State) :
    memRead (BitVec.ofNat 8 k) (loadImage image s) = image[k] := by
  have hlength : (image.take k).length = k := List.length_take_of_le hk.le
  have hlater : ∀ j < (image.drop (k + 1)).length, BitVec.ofNat 8 (k + 1 + j) ≠ BitVec.ofNat 8 k := by
    intro j hj
    rw [List.length_drop] at hj
    exact h (k + 1 + j) (by omega) (by omega)
  calc memRead (BitVec.ofNat 8 k) (loadImage image s)
      = memRead (BitVec.ofNat 8 k) (loadFrom 0 (image.take k ++ image[k] :: image.drop (k + 1)) s) := by
        rw [← List.drop_eq_getElem_cons hk, List.take_append_drop, loadImage]
    _ = image[k] := by
        rw [loadFrom_append, hlength, Nat.zero_add, loadFrom_cons, memRead_loadFrom_uncovered hlater,
          memRead_memWrite_same]

theorem ofNat_eq_iff (k : Nat) (a : Byte) : BitVec.ofNat 8 k = a ↔ k % 256 = a.toNat := by
  rw [← BitVec.toNat_inj, BitVec.toNat_ofNat]

/-- Settles O2: a byte followed by none for its cell stays, and an uncovered cell reads as after reset. -/
theorem imageBytesPlaced : Obligations.ImageBytesPlaced := by
  refine fun image => ⟨fun k hk hlater => ?_, fun a huncovered => ?_⟩
  · rw [memReadAt, wrap_natCast]
    refine memRead_loadImage_last hk (fun j hkj hj => ?_) State.reset
    rw [Ne, ofNat_eq_iff, BitVec.toNat_ofNat]
    exact hlater j hkj hj
  · have hcells : ∀ j < image.length, BitVec.ofNat 8 (0 + j) ≠ a := by
      intro j hj
      rw [Nat.zero_add, Ne, ofNat_eq_iff]
      exact huncovered j hj
    rw [loadImage, memRead_loadFrom_uncovered hcells]
    rfl

/-! ## Memory during execution (R44, R56) -/

variable {i : Instr} {s t : State}

theorem keepsMemory_of_mem_eq (h : t.mem = s.mem) (written : List Byte) : KeepsMemory written s t := by
  intro a _
  rw [memRead, memRead, h]

theorem keepsMemory_of_mem_write {a v : Byte} (h : t.mem = s.mem.write a.toNat v) : KeepsMemory [a] s t := by
  intro c hc
  have hread : memRead c t = memRead c (memWrite a v s) := by rw [memRead, memRead, h, memWrite_mem]
  rw [hread, memRead_memWrite_other (by simpa using hc)]

/-- Settles O47: a fault writes no memory, and a legal step writes as `LegalStep.mem_cases` says. -/
theorem onlyPushAndCallWriteMemory : Obligations.OnlyPushAndCallWriteMemory := by
  intro i s t hexec
  rcases exec_cases hexec with ⟨r, -, rfl⟩ | hlegal
  · exact ⟨keepsMemory_of_mem_eq rfl _, fun _ => keepsMemory_of_mem_eq rfl _⟩
  · rcases hlegal.mem_cases with ⟨a, v, hi, hmem⟩ | hmem
    · exact ⟨keepsMemory_of_mem_write hmem, fun hother => absurd hi (not_or.mpr (hother a))⟩
    · exact ⟨keepsMemory_of_mem_eq hmem _, fun _ => keepsMemory_of_mem_eq hmem _⟩

theorem decSp_sp (s : State) : (decSp s).sp = s.sp - 1 := State.reg_setReg_same s Reg.sp (s.sp - 1)

theorem decSp_reg (s : State) (r : Reg) : (decSp s).reg r = if r = 7 then s.sp - 1 else s.reg r :=
  State.reg_setReg s Reg.sp r (s.sp - 1)

/-- The store of PUSH and CALL, which goes to the cell below SP. -/
theorem memRead_store_below_sp (v a : Byte) (s : State) :
    memRead a (memWrite (decSp s).sp v (decSp s)) = if a = s.sp - 1 then v else memRead a s := by
  rw [memRead_memWrite, decSp_sp]
  rfl

/-- With any memory the store of PUSH and CALL leaves the same byte. -/
theorem memRead_stored_with_mem (v : Byte) (s : State) (m : Memory) :
    memRead (s.sp - 1) (memWrite (decSp s).sp v (decSp { s with mem := m })) =
      memRead (s.sp - 1) (memWrite (decSp s).sp v (decSp s)) := by
  rw [decSp_sp, memRead_memWrite_same, memRead_memWrite_same]

/-- With another memory (for POP and RET, one that agrees at SP) the same legal step happens outside memory, and PUSH
and CALL store the same byte. -/
theorem LegalStep.with_mem (h : LegalStep i s t) (m : Memory)
    (hsp : (∃ a, i = .pop a) ∨ i = .ret → m.read s.sp.toNat = memRead s.sp s) :
    ∃ n : Memory, LegalStep i { s with mem := m } { t with mem := n } ∧
      ((∃ a, i = .push a ∨ i = .call a) → n.read (s.sp - 1).toNat = memRead (s.sp - 1) t) := by
  cases h
  case push ra => exact ⟨_, .push ra _, fun _ => memRead_stored_with_mem _ s m⟩
  case call ra => exact ⟨_, .call ra _, fun _ => memRead_stored_with_mem _ s m⟩
  case pop ra =>
    have hload : memRead s.sp { s with mem := m } = memRead s.sp s := hsp (.inl ⟨_, rfl⟩)
    exact ⟨m, by rw [← hload]; exact .pop ra _, by simp⟩
  case ret =>
    have hload : memRead s.sp { s with mem := m } = memRead s.sp s := hsp (.inr rfl)
    exact ⟨m, by rw [← hload]; exact .ret _, by simp⟩
  case jeq_taken he | jeq_not_taken he | jne_taken he | jne_not_taken he =>
    exact ⟨m, by constructor; exact he, by simp⟩
  all_goals exact ⟨m, by constructor, by simp⟩

/-- Settles O48. -/
theorem executionReadsMemoryOnlyAtStackPointer : Obligations.ExecutionReadsMemoryOnlyAtStackPointer := by
  intro i s t m hexec hsp
  rcases exec_cases hexec with ⟨r, hbad, rfl⟩ | hlegal
  · refine ⟨_, exec_of_badRegister hbad _, rfl, fun hgood => ?_⟩
    rw [hgood] at hbad
    cases hbad
  · obtain ⟨n, hstep, hstored⟩ := hlegal.with_mem m hsp
    exact ⟨_, hstep.exec_eq, rfl, fun _ => hstored⟩

/-! ## Stores and the next fetch (R54, R201) -/

/-- A PUSH as it was fetched, in terms of the state before: where it stores and what (R131; R7 by D5). -/
theorem step_push {r : Reg} (hrun : s.runState = .running) (hfetch : fetchInstr s = .push r.toByte) :
    ∃ t, step s = .next t ∧ t.pc = s.pc + 2 ∧ t.sp = s.sp - 1 ∧
      ∀ a, memRead a t = if a = s.sp - 1 then (if r = 7 then s.sp - 1 else s.reg r) else memRead a s := by
  have hstep := (LegalStep.push r s).exec_eq
  rw [← hfetch, ← step_running hrun] at hstep
  refine ⟨_, hstep, rfl, decSp_sp s, fun a => ?_⟩
  rw [State.advance_memRead, memRead_store_below_sp, decSp_reg]

/-- A CALL as it was fetched, likewise (R141). -/
theorem step_call {r : Reg} (hrun : s.runState = .running) (hfetch : fetchInstr s = .call r.toByte) :
    ∃ t, step s = .next t ∧ t.pc = (if r = 7 then s.sp - 1 else s.reg r) ∧ t.sp = s.sp - 1 ∧
      ∀ a, memRead a t = if a = s.sp - 1 then s.pc + 2 else memRead a s := by
  have hstep := (LegalStep.call r s).exec_eq
  rw [← hfetch, ← step_running hrun] at hstep
  refine ⟨_, hstep, decSp_reg s r, decSp_sp s, fun a => ?_⟩
  rw [State.jump_memRead, memRead_store_below_sp]

/-- The fetch at pc decodes what the cells there hold. -/
theorem decode_cells_at_pc {cell : Byte → Byte} {p : Byte} (hpc : t.pc = p) (hcell : ∀ a, memRead a t = cell a) :
    ∃ rest, decode [cell p, cell (p + 1), cell (p + 2)] = .ok (fetchInstr t, rest) := by
  simpa only [hcell, hpc] using decode_bytes_at_pc t

/-- Settles O51: `step_push` and `step_call` give the cells after the step, and the next fetch decodes them. -/
theorem storedByteIsFetchedByNextStep : Obligations.StoredByteIsFetchedByNextStep := by
  intro r s hrun
  refine ⟨fun hfetch value cell hvalue hcell => ?_, fun hfetch target cell htarget hcell => ?_⟩
  · obtain ⟨t, hstep, hpc, hsp, hmem⟩ := step_push hrun hfetch
    have hcells (a : Byte) : memRead a t = cell a := by rw [hmem, hcell, hvalue]
    obtain ⟨rest, hdecode⟩ := decode_cells_at_pc hpc hcells
    rw [BitVec.add_assoc, BitVec.add_assoc] at hdecode
    exact ⟨t, rest, hstep, hpc, hsp, hcells, hdecode⟩
  · obtain ⟨t, hstep, hpc, hsp, hmem⟩ := step_call hrun hfetch
    have hcells (a : Byte) : memRead a t = cell a := by rw [hmem, hcell]
    have htarget' : t.pc = target := hpc.trans htarget.symm
    obtain ⟨rest, hdecode⟩ := decode_cells_at_pc htarget' hcells
    exact ⟨t, rest, hstep, htarget', hsp, hcells, hdecode⟩

end Sys2Proof.Machine

/-! ## Decoder and encoder agree (R60, R62, R66, R68) -/

namespace Sys2Proof

theorem Format.admits_cases {f : Format} {x y : Option Byte} (h : f.admits x y = true) :
    (f = .f0 ∧ x = none ∧ y = none) ∨ (∃ a, f = .f1 ∧ x = some a ∧ y = none) ∨
      (∃ a b, f = .f2 ∧ x = some a ∧ y = some b) := by
  unfold Format.admits at h
  split at h <;> simp_all

theorem decode_encode_unrecognised {op : Byte} {x y : Option Byte} (h : (Instr.unrecognised op x y).wellFormed = true)
    (rest : List Byte) : decode (encode (.unrecognised op x y) ++ rest) = .ok (.unrecognised op x y, rest) := by
  rw [Instr.wellFormed, Bool.and_eq_true, Option.isNone_iff_eq_none] at h
  obtain ⟨hop, hadmits⟩ := h
  rcases Format.admits_cases hadmits with ⟨hf, rfl, rfl⟩ | ⟨a, hf, rfl, rfl⟩ | ⟨a, b, hf, rfl, rfl⟩
  · rw [encode, ← decodeF0_unrecognised hop]
    exact decode_f0 hf rest
  · rw [encode, ← decodeF1_unrecognised hop]
    exact decode_f1 hf a rest
  · rw [encode, ← decodeF2_unrecognised hop]
    exact decode_f2 hf a b rest

/-- A recognised instruction's opcode byte announces the format of its row (R67), in which it reads as that row. -/
theorem decode_encode {i : Instr} (h : i.wellFormed = true) (rest : List Byte) :
    decode (encode i ++ rest) = .ok (i, rest) := by
  cases i
  case unrecognised op x y => exact decode_encode_unrecognised h rest
  case hlt | ret => exact decode_f0 (formatOf_opcode _) rest
  case prn a | not a | push a | pop a | call a | jmp a | jeq a | jne a => exact decode_f1 (formatOf_opcode _) a rest
  case ldi a b | add a b | mul a b | cmp a b | and a b | or a b | xor a b =>
    exact decode_f2 (formatOf_opcode _) a b rest

/-- Settles O10. -/
theorem decodeOfEncodeIsIdentity : Obligations.DecodeOfEncodeIsIdentity := fun _ rest h => decode_encode h rest

/-! Whatever an opcode byte selects, the encoding of the instruction read is the bytes read: a row's byte is its own
(`opcodeMap_eq_some`), and an unrecognised instruction carries all its bytes. -/

theorem encode_decodeF0 (op : Byte) : encode (decodeF0 op) = [op] := by
  unfold decodeF0
  split
  case h_3 => rfl
  all_goals next hop => rw [opcodeMap_eq_some hop, encode]

theorem encode_decodeF1 (op a : Byte) : encode (decodeF1 op a) = [op, a] := by
  unfold decodeF1
  split
  case h_9 => rfl
  all_goals next hop => rw [opcodeMap_eq_some hop, encode]

theorem encode_decodeF2 (op a b : Byte) : encode (decodeF2 op a b) = [op, a, b] := by
  unfold decodeF2
  split
  case h_8 => rfl
  all_goals next hop => rw [opcodeMap_eq_some hop, encode]

theorem encode_of_decode_ok {bytes rest : List Byte} {i : Instr} (h : decode bytes = .ok (i, rest)) :
    encode i ++ rest = bytes := by
  obtain ⟨op, ⟨-, rfl, rfl⟩ | ⟨a, -, rfl, rfl⟩ | ⟨a, b, -, rfl, rfl⟩⟩ := decode_ok_cases h
  · rw [encode_decodeF0, List.singleton_append]
  · rw [encode_decodeF1, List.cons_append, List.singleton_append]
  · rw [encode_decodeF2, List.cons_append, List.cons_append, List.singleton_append]

/-- Settles O11. -/
theorem encodeOfDecodeIsIdentity : Obligations.EncodeOfDecodeIsIdentity := fun _ _ _ h =>
  ⟨wellFormed_of_decode_ok h, encode_of_decode_ok h⟩

/-! ## One reading from a given start (R70) -/

theorem length_of_decode_ok {op : Byte} {r u : List Byte} {i : Instr} (h : decode (op :: r) = .ok (i, u)) :
    i.length = lengthOf op := by
  obtain ⟨op', operands, hbytes, -, hlength⟩ := decode_ok_takes_operands h
  rw [hlength, (List.cons.inj hbytes).1]

/-- Equal byte streams decode to equal instructions and leave equal rests. -/
theorem encode_append_inj {i j : Instr} {r r' : List Byte} (hi : i.wellFormed = true) (hj : j.wellFormed = true)
    (h : encode i ++ r = encode j ++ r') : i = j ∧ r = r' := by
  have hdecode : decode (encode i ++ r) = .ok (j, r') := h ▸ decode_encode hj r'
  rw [decode_encode hi r] at hdecode
  exact Prod.mk.inj (Except.ok.inj hdecode)

/-- Settles O12. The two readings of one stream: `PUSH` takes the byte 0x01 as its operand, and one byte later the
stream is `HLT`. -/
theorem byteStreamDecodesOneWay : Obligations.ByteStreamDecodesOneWay := by
  refine ⟨fun op r r' u u' i j hi hj => ?_, fun i j r r' => encode_append_inj, ?_⟩
  · exact (length_of_decode_ok hi).trans (length_of_decode_ok hj).symm
  · exact ⟨Mnemonic.push.opcode, [Mnemonic.hlt.opcode], [], [], .push Mnemonic.hlt.opcode, .hlt,
      decode_encode (i := .push _) rfl [], decode_encode (i := .hlt) rfl [], by decide, rfl⟩

/-! ## The length rule (R61) -/

/-- Bit 7 is worth 128, and below it bit 6 is worth 64. -/
theorem formatOf_eq (op : Byte) :
    formatOf op = if 128 ≤ op.toNat then .f2 else if 64 ≤ op.toNat then .f1 else .f0 := by
  have hop : op.toNat < 256 := op.isLt
  have h7 : op.getLsbD 7 = decide (128 ≤ op.toNat) := by
    rw [BitVec.getLsbD, Nat.testBit_eq_decide_div_mod_eq, decide_eq_decide]
    omega
  have h6 : ¬128 ≤ op.toNat → op.getLsbD 6 = decide (64 ≤ op.toNat) := by
    intro hlow
    rw [BitVec.getLsbD, Nat.testBit_eq_decide_div_mod_eq, decide_eq_decide]
    omega
  unfold formatOf
  by_cases hhigh : 128 ≤ op.toNat
  · simp only [h7, hhigh, decide_true, if_true]
  · simp only [h7, h6 hhigh, hhigh, decide_false, Bool.false_eq_true, if_false, decide_eq_true_eq]

theorem opcode_toNat_lt (m : Mnemonic) : m.opcode.toNat < 192 := by
  cases m <;> decide

/-- Settles O8. -/
theorem lengthFromTopTwoBits : Obligations.LengthFromTopTwoBits := by
  intro op
  rw [lengthOf, formatOf_eq]
  refine ⟨fun h => ?_, fun h h' => ?_, fun h => ?_, fun h => ?_⟩
  · rw [if_pos h, Format.length]
  · rw [if_neg h'.not_ge, if_pos h, Format.length]
  · rw [if_neg (by omega), if_neg h.not_ge, Format.length]
  · refine Option.eq_none_iff_forall_ne_some.mpr fun m hm => ?_
    exact (opcode_toNat_lt m).not_ge (opcodeMap_eq_some hm ▸ h)

/-! ## The decoder is total (R62, R68) -/

theorem decode_of_lengthOf_le {op : Byte} {rest : List Byte} (h : lengthOf op ≤ rest.length + 1) :
    ∃ (i : Instr) (u : List Byte), decode (op :: rest) = .ok (i, u) := by
  unfold lengthOf at h
  cases hf : formatOf op <;> rw [hf, Format.length] at h
  case f0 => exact ⟨_, _, decode_f0 hf rest⟩
  case f1 =>
    obtain ⟨a, u, rfl⟩ := List.exists_cons_of_length_pos (l := rest) (by omega)
    exact ⟨_, _, decode_f1 hf a u⟩
  case f2 =>
    match rest, h with
    | a :: b :: u, _ => exact ⟨_, _, decode_f2 hf a b u⟩

theorem decode_truncated {op : Byte} {rest : List Byte} (h : rest.length + 1 < lengthOf op) :
    decode (op :: rest) = .error (.truncated op) := by
  unfold lengthOf at h
  cases hf : formatOf op <;> rw [hf, Format.length] at h
  case f0 => omega
  case f1 =>
    match rest, h with
    | [], _ => simp only [decode, hf]
  case f2 =>
    match rest, h with
    | [], _ | [_], _ => simp only [decode, hf]

/-- Settles O13. -/
theorem decoderIsTotal : Obligations.DecoderIsTotal :=
  ⟨rfl, fun _ _ => ⟨decode_of_lengthOf_le, decode_truncated⟩⟩

/-! ## The words and the bytes of the table (R66, R68) -/

/-- Settles O14: each word is the encoding of its instruction, followed by the operand bytes it does not need. -/
theorem sampleWordsDecode : Obligations.SampleWordsDecode := fun a b =>
  ⟨decode_encode (i := .hlt) rfl [a],
    decode_encode (i := .ldi a b) rfl [],
    decode_encode (i := .prn a) rfl [b],
    decode_encode (i := .add a b) rfl [],
    decode_encode (i := .mul a b) rfl [],
    decode_encode (i := .cmp a b) rfl [],
    decode_encode (i := .and a b) rfl [],
    decode_encode (i := .or a b) rfl [],
    decode_encode (i := .xor a b) rfl [],
    decode_encode (i := .not a) rfl [b],
    decode_encode (i := .push a) rfl [b],
    decode_encode (i := .pop a) rfl [b],
    decode_encode (i := .call a) rfl [b],
    decode_encode (i := .ret) rfl [a],
    decode_encode (i := .jmp a) rfl [b],
    decode_encode (i := .jeq a) rfl [b],
    decode_encode (i := .jne a) rfl [b],
    decode_encode (i := .unrecognised 0b11000000 (some a) (some b)) rfl []⟩

theorem opcodeMap_eq_none_iff (op : Byte) : opcodeMap op = none ↔ op ∉ Mnemonic.all.map Mnemonic.opcode := by
  simp [opcodeMap]

theorem decode_three_unrecognised {op : Byte} (h : opcodeMap op = none) (a b : Byte) :
    ∃ (x y : Option Byte) (rest : List Byte), decode [op, a, b] = .ok (.unrecognised op x y, rest) := by
  cases hf : formatOf op
  · exact ⟨_, _, _, decodeF0_unrecognised h ▸ decode_f0 hf [a, b]⟩
  · exact ⟨_, _, _, decodeF1_unrecognised h a ▸ decode_f1 hf a [b]⟩
  · exact ⟨_, _, _, decodeF2_unrecognised h a b ▸ decode_f2 hf a b []⟩

/-- Settles O15: the 17 bytes are the opcode bytes of `Mnemonic.all`, in its order. -/
theorem otherOpcodesAreUnrecognised : Obligations.OtherOpcodesAreUnrecognised := fun op =>
  ⟨opcodeMap_eq_none_iff op, decode_three_unrecognised⟩

end Sys2Proof

/-! ## The pieces of an assembly text (R71; D10) -/

namespace Sys2Proof.Machine

/-- A piece of a statement, such as a mnemonic or an operand: not empty, with no space and no separator in it. -/
structure IsToken (t : List Char) : Prop where
  nonempty : t ≠ []
  plain : ∀ c ∈ t, c ∉ [' ', ',', ';', '\n']

/-- The text holds no character that ends a statement. -/
abbrev OneStatement (t : List Char) : Prop := ∀ c ∈ t, (c == ';' || c == '\n') = false

section

variable {t : List Char} (h : IsToken t)
include h

theorem IsToken.no_space : ' ' ∉ t := fun hmem => absurd (h.plain ' ' hmem) (by simp)

theorem IsToken.bne_space : ∀ c ∈ t, (c != ' ') = true := fun _ hc => bne_iff_ne.mpr fun heq => h.no_space (heq ▸ hc)

theorem IsToken.no_comma : ∀ c ∈ t, (c == ',') = false := by
  intro c hc
  have hplain := h.plain c hc
  simp_all

theorem IsToken.oneStatement : OneStatement t := by
  intro c hc
  have hplain := h.plain c hc
  simp_all

end

theorem mnemonicName_isToken (m : Mnemonic) : IsToken (mnemonicName m) := by
  cases m <;> constructor <;> simp [mnemonicName]

/-! ### Decimal numbers -/

theorem digitValue_digitChar {n : Nat} (h : n < 10) : digitValue 10 (digitChar n) = some n := by
  revert n; decide

/-- The number whose decimal digits are `ds`, read on from `acc`, as `digitsValue` reads characters. -/
def decimalNumber (acc : Nat) (ds : List Nat) : Nat := ds.foldl (fun n d => 10 * n + d) acc

/-- The digits of a byte's decimal text are those of its value in base 10. -/
theorem decimal_digits (v : Byte) : ∃ ds : List Nat, ds ≠ [] ∧ (∀ n ∈ ds, n < 10) ∧ decimal v = ds.map digitChar ∧
    decimalNumber 0 ds = v.toNat := by
  have hv : v.toNat < 256 := v.isLt
  by_cases hone : v.toNat < 10
  · exact ⟨[v.toNat], by simp, by simpa, by simp [decimal, hone], by simp [decimalNumber]⟩
  by_cases htwo : v.toNat < 100
  · exact ⟨[v.toNat / 10, v.toNat % 10], by simp, by simp; omega, by simp [decimal, hone, htwo],
      by simp [decimalNumber]; omega⟩
  · exact ⟨[v.toNat / 100, v.toNat / 10 % 10, v.toNat % 10], by simp, by simp; omega,
      by simp [decimal, hone, htwo], by simp [decimalNumber]; omega⟩

theorem digitsValue_digits {ds : List Nat} (h : ∀ n ∈ ds, n < 10) (acc : Nat) :
    digitsValue 10 acc (ds.map digitChar) = some (decimalNumber acc ds) := by
  induction ds generalizing acc with
  | nil => rfl
  | cons n ds ih =>
    obtain ⟨hn, hds⟩ := List.forall_mem_cons.mp h
    rw [List.map_cons, digitsValue, digitValue_digitChar hn, decimalNumber, List.foldl_cons]
    exact ih hds _

theorem digitsValue_decimal (v : Byte) : digitsValue 10 0 (decimal v) = some v.toNat := by
  obtain ⟨ds, -, hlt, htext, hvalue⟩ := decimal_digits v
  rw [htext, digitsValue_digits hlt, hvalue]

theorem decimal_ne_nil (v : Byte) : decimal v ≠ [] := by
  obtain ⟨ds, hne, -, htext, -⟩ := decimal_digits v
  simpa [htext] using hne

theorem mem_decimal {v : Byte} {c : Char} (h : c ∈ decimal v) : ∃ n < 10, c = digitChar n := by
  obtain ⟨ds, -, hlt, htext, -⟩ := decimal_digits v
  obtain ⟨n, hn, rfl⟩ := List.mem_map.mp (htext ▸ h)
  exact ⟨n, hlt n hn, rfl⟩

/-- A digit separates nothing and announces no base. -/
theorem digitChar_ne {n : Nat} (h : n < 10) : digitChar n ∉ [' ', ',', ';', '\n', 'x', 'b'] := by
  revert n; decide

theorem decimal_isToken (v : Byte) : IsToken (decimal v) := by
  refine ⟨decimal_ne_nil v, fun c hc => ?_⟩
  obtain ⟨n, hn, rfl⟩ := mem_decimal hc
  exact fun h => digitChar_ne hn (List.mem_append_left ['x', 'b'] h)

theorem registerText_isToken (r : Reg) : IsToken (registerText r) := by
  have hdigit : digitChar r.val ∉ [' ', ',', ';', '\n'] := fun h =>
    digitChar_ne (by omega : r.val < 10) (List.mem_append_left ['x', 'b'] h)
  exact ⟨List.cons_ne_nil _ _, by simpa [registerText] using hdigit⟩

/-- A text with no base mark in it is read as decimal. -/
theorem parseNumber_of_no_base {ds : List Char} (hx : 'x' ∉ ds) (hb : 'b' ∉ ds) :
    parseNumber ds = byteOfDigits 10 ds := by
  unfold parseNumber
  split <;> simp_all

theorem parseNumber_decimal (v : Byte) : parseNumber (decimal v) = some v := by
  have hbase (c : Char) (hc : c ∈ ['x', 'b']) : c ∉ decimal v := by
    intro hmem
    obtain ⟨n, hn, rfl⟩ := mem_decimal hmem
    exact digitChar_ne hn (List.mem_append_right [' ', ',', ';', '\n'] hc)
  rw [parseNumber_of_no_base (hbase 'x' (by decide)) (hbase 'b' (by decide)), byteOfDigits.eq_def, digitsValue_decimal]
  obtain ⟨c, ds, hcons⟩ := List.exists_cons_of_ne_nil (decimal_ne_nil v)
  simp [hcons, v.isLt]

/-! ### Registers -/

theorem parseRegister_registerText (r : Reg) : parseRegister (registerText r) = some r.toByte := by
  revert r; decide

/-! ### Cutting a text -/

theorem splitText_ne_nil (sep : Char → Bool) (t : List Char) : splitText sep t ≠ [] := by
  induction t with
  | nil => simp [splitText]
  | cons c cs ih =>
    obtain ⟨l, ls, hcons⟩ := List.exists_cons_of_ne_nil ih
    rw [splitText, hcons]
    dsimp only
    split <;> exact List.cons_ne_nil _ _

theorem splitText_cons {sep : Char → Bool} {cs l : List Char} {ls : List (List Char)} (c : Char)
    (h : splitText sep cs = l :: ls) :
    splitText sep (c :: cs) = if sep c then [] :: l :: ls else (c :: l) :: ls := by
  rw [splitText, h]

/-- The first piece of a text grows by what stands before it without a separator. -/
theorem splitText_append {sep : Char → Bool} {t u l : List Char} {ls : List (List Char)}
    (ht : ∀ c ∈ t, sep c = false) (hu : splitText sep u = l :: ls) : splitText sep (t ++ u) = (t ++ l) :: ls := by
  induction t with
  | nil => exact hu
  | cons c t ih =>
    obtain ⟨hc, ht⟩ := List.forall_mem_cons.mp ht
    rw [List.cons_append, splitText_cons c (ih ht), hc]
    rfl

theorem splitText_of_no_sep {sep : Char → Bool} {t : List Char} (h : ∀ c ∈ t, sep c = false) :
    splitText sep t = [t] := by
  simpa using splitText_append h (u := []) rfl

theorem splitText_append_sep {sep : Char → Bool} {t : List Char} {c : Char} (ht : ∀ c ∈ t, sep c = false)
    (hc : sep c = true) (u : List Char) : splitText sep (t ++ c :: u) = t :: splitText sep u := by
  obtain ⟨l, ls, hcons⟩ := List.exists_cons_of_ne_nil (splitText_ne_nil sep u)
  have hsep : splitText sep (c :: u) = [] :: l :: ls := by rw [splitText_cons c hcons, if_pos hc]
  rw [splitText_append ht hsep, hcons, List.append_nil]

/-! ### Spaces around a text -/

theorem dropSpaces_of_head {t : List Char} (h : t.head? ≠ some ' ') : t.dropWhile (fun c => c == ' ') = t := by
  cases t with
  | nil => rfl
  | cons c t => exact List.dropWhile_cons_of_neg (by simpa using h)

theorem trim_eq_self {t : List Char} (hhead : t.head? ≠ some ' ') (hlast : t.getLast? ≠ some ' ') : trim t = t := by
  rw [← List.head?_reverse] at hlast
  rw [trim, dropSpaces_of_head hhead, dropSpaces_of_head hlast, List.reverse_reverse]

theorem trim_of_no_space {t : List Char} (h : ' ' ∉ t) : trim t = t :=
  trim_eq_self (mt List.mem_of_head? h) (mt List.mem_of_getLast? h)

theorem trim_space_cons (t : List Char) : trim (' ' :: t) = trim t := by
  simp [trim]

/-! ### Operand tokens -/

theorem operand_tokens_one {a : List Char} (ha : IsToken a) :
    (splitText (fun c => c == ',') a).map trim = [a] := by
  rw [splitText_of_no_sep ha.no_comma, List.map_singleton, trim_of_no_space ha.no_space]

theorem operand_tokens_two {a b : List Char} (ha : IsToken a) (hb : IsToken b) :
    (splitText (fun c => c == ',') (a ++ ',' :: b)).map trim = [a, b] := by
  rw [splitText_append_sep ha.no_comma rfl, List.map_cons, operand_tokens_one hb, trim_of_no_space ha.no_space]

/-! ## One statement -/

section

variable {word rest : List Char} (hword : IsToken word) (hrest : rest ≠ []) (hspace : ' ' ∉ rest)

include hword hrest hspace in
theorem trim_statement : trim (word ++ ' ' :: rest) = word ++ ' ' :: rest := by
  refine trim_eq_self ?_ ?_
  · rw [List.head?_append_of_ne_nil _ hword.nonempty]
    exact mt List.mem_of_head? hword.no_space
  · rw [List.append_cons, List.getLast?_append_of_ne_nil _ hrest]
    exact mt List.mem_of_getLast? hspace

include hword in
theorem takeWhile_statement : (word ++ ' ' :: rest).takeWhile (fun c => c != ' ') = word := by
  rw [List.takeWhile_append_of_pos hword.bne_space, List.takeWhile_cons_of_neg (by simp), List.append_nil]

include hword in
theorem dropWhile_statement : (word ++ ' ' :: rest).dropWhile (fun c => c != ' ') = ' ' :: rest := by
  rw [List.dropWhile_append_of_pos hword.bne_space, List.dropWhile_cons_of_neg (by simp)]

end

theorem find_mnemonicName (m : Mnemonic) : (Mnemonic.all.find? fun n => mnemonicName n == mnemonicName m) = some m := by
  cases m <;> decide

theorem mnemonicName_ne_byte (m : Mnemonic) : mnemonicName m ≠ ['.', 'b', 'y', 't', 'e'] := by
  cases m <;> decide

/-- A mnemonic, a space and operands without spaces. -/
theorem assembleStatement_mnemonic (m : Mnemonic) {rest : List Char} (hrest : rest ≠ []) (hspace : ' ' ∉ rest) :
    assembleStatement (mnemonicName m ++ ' ' :: rest) =
      (parseOperands m ((splitText (fun c => c == ',') rest).map trim)).map fun bs => m.opcode :: bs := by
  have hword : IsToken (mnemonicName m) := mnemonicName_isToken m
  simp [assembleStatement, trim_statement hword hrest hspace, takeWhile_statement hword, dropWhile_statement hword,
    trim_space_cons, trim_of_no_space hspace, hrest, mnemonicName_ne_byte, find_mnemonicName]

theorem assembleStatement_space_cons (t : List Char) : assembleStatement (' ' :: t) = assembleStatement t := by
  simp only [assembleStatement, trim_space_cons]

theorem byteWord_isToken : IsToken ['.', 'b', 'y', 't', 'e'] := by
  constructor <;> simp

theorem byteText_eq (v : Byte) : byteText v = ['.', 'b', 'y', 't', 'e'] ++ ' ' :: decimal v := rfl

theorem assembleStatement_byteText (v : Byte) : assembleStatement (byteText v) = some [v] := by
  have hword := byteWord_isToken
  have hvalue : IsToken (decimal v) := decimal_isToken v
  simp only [byteText_eq, assembleStatement, trim_statement hword hvalue.nonempty hvalue.no_space,
    takeWhile_statement hword, dropWhile_statement hword, trim_space_cons, trim_of_no_space hvalue.no_space,
    operand_tokens_one hvalue, parseNumber_decimal, hvalue.nonempty, List.append_eq_nil_iff, reduceCtorEq, and_false,
    if_false, if_true, Option.map_some]

/-! ## A text of statements -/

theorem oneStatement_append {word rest : List Char} (hword : IsToken word) (hrest : OneStatement rest) :
    OneStatement (word ++ ' ' :: rest) :=
  List.forall_mem_append.mpr ⟨hword.oneStatement, List.forall_mem_cons.mpr ⟨by decide, hrest⟩⟩

theorem assemble_of_statement {t : List Char} {bs : List Byte} (ht : OneStatement t)
    (h : assembleStatement t = some bs) : assemble t = some bs := by
  rw [assemble, splitText_of_no_sep ht]
  simp [assembleAll, h]

theorem assemble_append {t u : List Char} {bs more : List Byte} (ht : OneStatement t)
    (h : assembleStatement t = some bs) (hu : assemble u = some more) :
    assemble (t ++ ';' :: u) = some (bs ++ more) := by
  rw [assemble] at hu
  rw [assemble, splitText_append_sep ht rfl]
  simp only [assembleAll, h, hu]

theorem assemble_space_cons (u : List Char) : assemble (' ' :: u) = assemble u := by
  obtain ⟨l, ls, hcons⟩ := List.exists_cons_of_ne_nil (splitText_ne_nil (fun c => c == ';' || c == '\n') u)
  rw [assemble, assemble, splitText_cons ' ' hcons, hcons, if_neg (by decide), assembleAll, assembleAll,
    assembleStatement_space_cons]

theorem byteText_oneStatement (v : Byte) : OneStatement (byteText v) :=
  oneStatement_append byteWord_isToken (decimal_isToken v).oneStatement

/-- Any bytes, written as `.byte` statements. -/
theorem assemble_bytesText (bs : List Byte) : assemble (bytesText bs) = some bs := by
  induction bs using bytesText.induct with
  | case1 => decide
  | case2 v => exact assemble_of_statement (byteText_oneStatement v) (assembleStatement_byteText v)
  | case3 v vs hvs ih =>
    have htext : bytesText (v :: vs) = byteText v ++ ';' :: ' ' :: bytesText vs := by
      rw [bytesText, List.append_assoc]
      · rfl
      · exact hvs
    rw [htext]
    exact assemble_append (byteText_oneStatement v) (assembleStatement_byteText v) ((assemble_space_cons _).trans ih)

/-- A mnemonic with operands, as one line. -/
theorem assemble_mnemonic {m : Mnemonic} {rest : List Char} {operands : List (List Char)} {bs : List Byte}
    (hrest : rest ≠ []) (hspace : ' ' ∉ rest) (hone : OneStatement rest)
    (hoperands : (splitText (fun c => c == ',') rest).map trim = operands) (h : parseOperands m operands = some bs) :
    assemble (mnemonicName m ++ ' ' :: rest) = some (m.opcode :: bs) := by
  refine assemble_of_statement (oneStatement_append (mnemonicName_isToken m) hone) ?_
  rw [assembleStatement_mnemonic m hrest hspace, hoperands, h, Option.map_some]

theorem assemble_one_operand {m : Mnemonic} {a : List Char} {bs : List Byte} (ha : IsToken a)
    (h : parseOperands m [a] = some bs) : assemble (mnemonicName m ++ ' ' :: a) = some (m.opcode :: bs) :=
  assemble_mnemonic ha.nonempty ha.no_space ha.oneStatement (operand_tokens_one ha) h

theorem assemble_two_operands {m : Mnemonic} {a b : List Char} {bs : List Byte} (ha : IsToken a) (hb : IsToken b)
    (h : parseOperands m [a, b] = some bs) :
    assemble (mnemonicName m ++ ' ' :: (a ++ ',' :: b)) = some (m.opcode :: bs) := by
  refine assemble_mnemonic (by simp) ?_ ?_ (operand_tokens_two ha hb) h
  · simp [ha.no_space, hb.no_space]
  · exact List.forall_mem_append.mpr ⟨ha.oneStatement, List.forall_mem_cons.mpr ⟨by decide, hb.oneStatement⟩⟩

/-! ## The text of an instruction -/

theorem assemble_text1 {m : Mnemonic} (hm : m.format = .f1) (a : Byte) :
    assemble (text1 m a) = some [m.opcode, a] := by
  unfold text1
  split
  · next r hr =>
    rw [registerOf_eq_some hr, List.append_assoc]
    exact assemble_one_operand (registerText_isToken r) (by simp [parseOperands, hm, parseRegister_registerText])
  · exact assemble_bytesText _

theorem assemble_text2 {m : Mnemonic} (hm : m.format = .f2) (hldi : m ≠ .ldi) (a b : Byte) :
    assemble (text2 m a b) = some [m.opcode, a, b] := by
  unfold text2
  split
  · next ra rb hra hrb =>
    rw [registerOf_eq_some hra, registerOf_eq_some hrb]
    simp only [List.append_assoc]
    exact assemble_two_operands (registerText_isToken ra) (registerText_isToken rb)
      (by simp [parseOperands, hm, hldi, parseRegister_registerText])
  · exact assemble_bytesText _

theorem assemble_ldi (a imm : Byte) : assemble (asmText (.ldi a imm)) = some [Mnemonic.ldi.opcode, a, imm] := by
  rw [asmText]
  split
  · next ra hra =>
    rw [registerOf_eq_some hra]
    simp only [List.append_assoc]
    exact assemble_two_operands (registerText_isToken ra) (decimal_isToken imm)
      (by simp [parseOperands, Mnemonic.format, parseRegister_registerText, parseNumber_decimal])
  · exact assemble_bytesText _

theorem assemble_no_operand {m : Mnemonic} (hm : m.format = .f0) : assemble (mnemonicName m) = some [m.opcode] := by
  cases m
  case hlt | ret => decide
  all_goals cases hm

/-- Every text is a mnemonic with its operands or a list of `.byte` statements. -/
theorem assemble_asmText (i : Instr) : assemble (asmText i) = some (encode i) := by
  cases i <;> rw [asmText, encode]
  case hlt | ret => exact assemble_no_operand rfl
  case ldi a imm => exact assemble_ldi a imm
  case prn a | not a | push a | pop a | call a | jmp a | jeq a | jne a => exact assemble_text1 rfl a
  case add a b | mul a b | cmp a b | and a b | or a b | xor a b => exact assemble_text2 rfl (by decide) a b
  case unrecognised op a b => exact assemble_bytesText _

/-- Settles O16. The text of a term that is not well-formed assembles too. -/
theorem assemblyTextAssemblesToEncoding : Obligations.AssemblyTextAssemblesToEncoding := fun i _ => assemble_asmText i

end Sys2Proof.Machine

/-! ## The step of the state machine (R80, R81, R84, R85) -/

namespace Sys2Proof.Machine

variable {i : Instr} {s t u : State}

/-- The fetch reads the bytes that the wrapping interface reads at pc, pc + 1 and pc + 2 (R47, R62). -/
theorem fetchInstr_of_decode {rest : List Byte}
    (h : decode [memReadAt s.pc.toNat s, memReadAt (s.pc.toNat + 1) s, memReadAt (s.pc.toNat + 2) s] =
      .ok (i, rest)) : fetchInstr s = i := by
  have hsecond : memReadAt (s.pc.toNat + 1) s = memRead (s.pc + 1) s := memReadAt_toNat_add s.pc 1 s
  have hthird : memReadAt (s.pc.toNat + 2) s = memRead (s.pc + 2) s := memReadAt_toNat_add s.pc 2 s
  obtain ⟨more, hfetch⟩ := decode_bytes_at_pc s
  rw [memReadAt_toNat, hsecond, hthird, hfetch] at h
  exact congrArg Prod.fst (Except.ok.inj h)

/-- Settles O17: the decoded instruction is the fetched one, which a step in RUNNING executes. -/
theorem stepExecutesDecodedInstruction : Obligations.StepExecutesDecodedInstruction := by
  intro s i rest hrun _ hdecode
  rw [step_running hrun, fetchInstr_of_decode hdecode]

/-- Settles O18: every instruction answers a next state, so in RUNNING a step does too. -/
theorem stepHasNextStateExactlyInRunning : Obligations.StepHasNextStateExactlyInRunning := fun s =>
  ⟨fun hrun => step_running hrun ▸ exec_answers_next (fetchInstr s) s, step_halted, step_faulted⟩

/-- Only HLT enters HALTED: a fault enters FAULTED, and any other legal step keeps the run state. -/
theorem eq_hlt_of_exec_enters_halted (h : exec i s = .next t) (hs : s.runState ≠ .halted)
    (ht : t.runState = .halted) : i = .hlt := by
  rcases exec_cases h with ⟨r, -, rfl⟩ | hlegal
  · cases ht
  · rcases hlegal.runState_cases with ⟨hi, -⟩ | hkeep
    · exact hi
    · exact absurd (hkeep.symm.trans ht) hs

/-- Settles O19. -/
theorem haltedIsTerminalAndReachedOnlyByHlt : Obligations.HaltedIsTerminalAndReachedOnlyByHlt := by
  refine fun s t => ⟨fun hstep ht => ?_, fun hs hstep => ?_⟩
  · obtain ⟨hrun, hexec⟩ := step_next hstep
    exact eq_hlt_of_exec_enters_halted hexec (by simp [hrun]) ht
  · rw [step_halted hs] at hstep
    cases hstep

/-! ## Runs with legal register operands (R85; C6) -/

theorem badRegister_eq_none_iff (i : Instr) : i.badRegister = none ↔ ∀ r ∈ i.registerOperands, r.toNat < 8 := by
  simp [Instr.badRegister]

theorem LegalStep.runState_ne_faulted (h : LegalStep i s t) (hs : s.runState ≠ .faulted) : t.runState ≠ .faulted := by
  rcases h.runState_cases with ⟨-, ht⟩ | ht
  · simp [ht]
  · exact ht ▸ hs

/-- A step on legal register operands stays out of FAULTED. -/
theorem step_runState_ne_faulted (hlegal : ∀ r ∈ (fetchInstr s).registerOperands, r.toNat < 8)
    (h : step s = .next t) : t.runState ≠ .faulted := by
  obtain ⟨hrun, hexec⟩ := step_next h
  exact (legalStep_of_exec ((badRegister_eq_none_iff _).mpr hlegal) hexec).runState_ne_faulted (by simp [hrun])

/-- Settles O44: a run ends in its first state or behind a step, and the hypothesis covers the state of that step. -/
theorem legalOperandsKeepRunSafe : Obligations.LegalOperandsKeepRunSafe := by
  intro s hs hlegal t hreach
  cases hreach with
  | refl => exact hs
  | tail hbefore hstep => exact step_runState_ne_faulted (hlegal _ hbefore (step_next hstep).1) hstep

/-! ## Default advance and explicit jump (R26, R83) -/

theorem advances_of_pc_eq {n : Nat} (h : t.pc = s.pc + BitVec.ofNat 8 n) : Advances n s t := by
  simp [Advances, h]

/-- The instructions of the "default length" behaviour: those that neither write pc nor halt (R81, R83). -/
def advancesByLength : Instr → Bool
  | .hlt | .call _ | .ret | .jmp _ | .jeq _ | .jne _ => false
  | _ => true

theorem LegalStep.advances (h : LegalStep i s t) (hdefault : advancesByLength i = true) : Advances i.length s t := by
  cases h
  case hlt | call | ret | jmp | jeq_taken | jeq_not_taken | jne_taken | jne_not_taken => cases hdefault
  all_goals exact advances_of_pc_eq rfl

/-- A legal step of an instruction is the only execution of it. -/
theorem LegalStep.eq_of_exec (h : LegalStep i s u) (hexec : exec i s = .next t) : t = u :=
  Host.Outcome.next.inj (hexec.symm.trans h.exec_eq)

/-! The "conditional" behaviour (R83): E decides between the jump and the default advance. -/

theorem jeq_jumps_or_advances {r : Reg} (h : exec (.jeq r.toByte) s = .next t) :
    if s.equal then t.pc = s.reg r else Advances 2 s t := by
  cases he : s.equal
  · rw [(LegalStep.jeq_not_taken r s he).eq_of_exec h]
    exact advances_of_pc_eq rfl
  · rw [(LegalStep.jeq_taken r s he).eq_of_exec h]
    rfl

theorem jne_jumps_or_advances {r : Reg} (h : exec (.jne r.toByte) s = .next t) :
    if s.equal then Advances 2 s t else t.pc = s.reg r := by
  cases he : s.equal
  · rw [(LegalStep.jne_taken r s he).eq_of_exec h]
    rfl
  · rw [(LegalStep.jne_not_taken r s he).eq_of_exec h]
    exact advances_of_pc_eq rfl

theorem call_pc {r : Reg} (h : exec (.call r.toByte) s = .next t) :
    t.pc = if r = 7 then s.sp - 1 else s.reg r := by
  rw [(LegalStep.call r s).eq_of_exec h, State.jump_pc, decSp_reg]

/-- Settles O39: the listed instructions have legal operands and the default advance, and each jump's target is that of
its legal step. -/
theorem defaultAdvanceOrExplicitJump : Obligations.DefaultAdvanceOrExplicitJump := by
  refine fun r q imm op x y s t => ⟨fun i hi h => ?_, fun h hr => (call_pc h).trans (if_neg hr),
    fun h => (LegalStep.ret s).eq_of_exec h ▸ rfl, fun h => (LegalStep.jmp r s).eq_of_exec h ▸ rfl,
    jeq_jumps_or_advances, jne_jumps_or_advances⟩
  obtain ⟨hlegal, hdefault⟩ : i.badRegister = none ∧ advancesByLength i = true := by
    clear h
    revert i
    simp [badRegister_eq_none_iff, Instr.registerOperands, toByte_lt_eight, advancesByLength]
  exact (legalStep_of_exec hlegal h).advances hdefault

end Sys2Proof.Machine

/-! ## The ALU (R100 to R107) -/

namespace Sys2Proof.Machine

variable {i : Instr} {s t u : State}

/-! What the operations compute, in exact arithmetic, bit by bit, or as the FL byte. AND, OR and XOR are Lean's own
operators, so their bits are the library's `BitVec.getLsbD_and`, `_or` and `_xor`. -/

theorem aluAdd_toNat (x y : Byte) : (aluAdd x y).toNat = (x.toNat + y.toNat) % 256 := BitVec.toNat_ofNat _ 8

theorem aluMul_toNat (x y : Byte) : (aluMul x y).toNat = x.toNat * y.toNat % 256 := BitVec.toNat_ofNat _ 8

theorem aluNot_toNat (x : Byte) : (aluNot x).toNat = 255 - x.toNat := BitVec.toNat_not

theorem aluEqual_iff (x y : Byte) : aluEqual x y = true ↔ x = y := beq_iff_eq

/-- CMP's byte: E stands at bit 0 (D2). -/
theorem flagsByte_aluEqual (x y : Byte) :
    flagsByte Config.flEBit (aluEqual x y) = if x = y then 0x01#8 else 0x00#8 := by
  simp [flagsByte, Config.flEBit, aluEqual_iff]

/-- The frame that every instruction with one register result shares (R26, R100). -/
theorem registerFrame_setReg_advance (s : State) (r : Reg) (v : Byte) (n : Nat) :
    RegisterFrame [r] n s ((s.setReg r v).advance n) where
  registers _ hq := State.reg_setReg_other s (List.ne_of_not_mem_cons hq) v
  flags := rfl
  memory := keepsMemory_of_mem_eq rfl _
  outputs := ⟨rfl, rfl⟩
  runState := ⟨rfl, rfl⟩
  advances := advances_of_pc_eq rfl

/-- A legal step that writes one register and advances leaves its value there, under `RegisterFrame`. -/
theorem LegalStep.writes_register {r : Reg} {v : Byte} {n : Nat} (h : LegalStep i s ((s.setReg r v).advance n)) :
    ∃ t, exec i s = .next t ∧ t.reg r = v ∧ RegisterFrame [r] n s t :=
  ⟨_, h.exec_eq, State.reg_setReg_same s r v, registerFrame_setReg_advance s r v n⟩

/-! ## CMP and the branch behind it (R107, R144, R145) -/

theorem cmp_reg {ra rb : Reg} (h : exec (.cmp ra.toByte rb.toByte) s = .next t) (r : Reg) : t.reg r = s.reg r := by
  rw [(LegalStep.cmp ra rb s).eq_of_exec h]
  rfl

theorem cmp_advances {ra rb : Reg} (h : exec (.cmp ra.toByte rb.toByte) s = .next t) : Advances 3 s t := by
  rw [(LegalStep.cmp ra rb s).eq_of_exec h]
  exact advances_of_pc_eq rfl

/-- What the next JEQ or JNE tests; no place of E in FL is used. -/
theorem cmp_equal_iff {ra rb : Reg} (h : exec (.cmp ra.toByte rb.toByte) s = .next t) :
    t.equal = true ↔ s.reg ra = s.reg rb := by
  rw [(LegalStep.cmp ra rb s).eq_of_exec h, State.advance_equal, State.setEqual_equal, aluEqual_iff]

theorem Advances.trans {m n : Nat} (hst : Advances m s t) (htu : Advances n t u) : Advances (m + n) s u := by
  unfold Advances at *
  omega

/-- Settles O38: CMP sets E to the equality and keeps the target register; each branch then tests E, and one that is not
taken advances by 2 behind CMP's 3. -/
theorem branchAfterCompareFollowsEquality : Obligations.BranchAfterCompareFollowsEquality := by
  intro ra rb rc s t hcmp
  obtain ⟨u, hjeq⟩ := exec_answers_next (.jeq rc.toByte) t
  obtain ⟨v, hjne⟩ := exec_answers_next (.jne rc.toByte) t
  have hu := jeq_jumps_or_advances hjeq
  have hv := jne_jumps_or_advances hjne
  rw [cmp_reg hcmp] at hu hv
  refine ⟨u, v, hjeq, hjne, fun heq => ?_, fun hne => ?_⟩
  · have hequal : t.equal = true := (cmp_equal_iff hcmp).mpr heq
    rw [if_pos hequal] at hu hv
    exact ⟨hu, (cmp_advances hcmp).trans hv⟩
  · have hequal : ¬ t.equal = true := mt (cmp_equal_iff hcmp).mp hne
    rw [if_neg hequal] at hu hv
    exact ⟨hv, (cmp_advances hcmp).trans hu⟩

/-! ## Results and frames -/

/-- Settles O20. -/
theorem addWritesSumModulo256 : Obligations.AddWritesSumModulo256 := by
  intro ra rb s
  obtain ⟨t, hexec, hreg, hframe⟩ := (LegalStep.add ra rb s).writes_register
  exact ⟨t, hexec, hreg ▸ aluAdd_toNat _ _, hframe⟩

/-- Settles O21. -/
theorem mulWritesProductModulo256 : Obligations.MulWritesProductModulo256 := by
  intro ra rb s
  obtain ⟨t, hexec, hreg, hframe⟩ := (LegalStep.mul ra rb s).writes_register
  exact ⟨t, hexec, hreg ▸ aluMul_toNat _ _, hframe⟩

/-- Settles O22: one case per instruction, each by the library's lemma on the bits of its operator. -/
theorem andOrXorActBitwise : Obligations.AndOrXorActBitwise := by
  refine fun ra rb s => ⟨?and, ?or, ?xor⟩
  case and =>
    obtain ⟨t, hexec, hreg, hframe⟩ := (LegalStep.and ra rb s).writes_register
    exact ⟨t, hexec, fun _ => hreg ▸ BitVec.getLsbD_and, hframe⟩
  case or =>
    obtain ⟨t, hexec, hreg, hframe⟩ := (LegalStep.or ra rb s).writes_register
    exact ⟨t, hexec, fun _ => hreg ▸ BitVec.getLsbD_or, hframe⟩
  case xor =>
    obtain ⟨t, hexec, hreg, hframe⟩ := (LegalStep.xor ra rb s).writes_register
    exact ⟨t, hexec, fun _ => hreg ▸ BitVec.getLsbD_xor, hframe⟩

/-- Settles O23. -/
theorem notWritesComplement : Obligations.NotWritesComplement := by
  intro ra s
  obtain ⟨t, hexec, hreg, hframe⟩ := (LegalStep.not ra s).writes_register
  exact ⟨t, hexec, hreg ▸ aluNot_toNat _, hframe⟩

/-- Settles O24: CMP's state differs from the one before in FL and pc alone. -/
theorem cmpWritesEqualityToFlags : Obligations.CmpWritesEqualityToFlags := by
  intro ra rb s
  have hexec := (LegalStep.cmp ra rb s).exec_eq
  exact ⟨_, hexec, flagsByte_aluEqual _ _, fun r _ => cmp_reg hexec r, keepsMemory_of_mem_eq rfl _, ⟨rfl, rfl⟩,
    ⟨rfl, rfl⟩, cmp_advances hexec⟩

end Sys2Proof.Machine

/-! ## HLT, LDI and PRN (R120 to R122) -/

namespace Sys2Proof.Machine

/-- Settles O25: whatever pc HALTED leaves (D6), `haltWith` changes the run state and pc alone. -/
theorem hltEntersHalted : Obligations.HltEntersHalted := fun s =>
  ⟨_, (LegalStep.hlt s).exec_eq, haltWith_runState s _, fun r _ => haltWith_reg s _ r, haltWith_fl s _,
    keepsMemory_of_mem_eq (haltWith_mem s _) _, ⟨haltWith_out s _, haltWith_diag s _⟩, haltWith_faultRecord s _⟩

/-- Settles O26. -/
theorem ldiWritesImmediate : Obligations.LdiWritesImmediate := fun ra imm s =>
  (LegalStep.ldi ra imm s).writes_register

/-- Settles O27: PRN's state differs from the one before in the output stream and pc alone. -/
theorem prnAppendsRegisterToOutput : Obligations.PrnAppendsRegisterToOutput := fun ra s =>
  ⟨_, (LegalStep.prn ra s).exec_eq, rfl, rfl, fun _ _ => rfl, rfl, keepsMemory_of_mem_eq rfl _, ⟨rfl, rfl⟩,
    advances_of_pc_eq rfl⟩

/-! ## The text of the output stream (R123; D8) -/

theorem hostText_emitOut (s : State) (v : Byte) : (emitOut v s).hostText = s.hostText ++ decimal v ++ ['\n'] := by
  simp [State.hostText, outputText, Config.lineEnd]

theorem digitChar_between {n : Nat} (h : n < 10) : '0' ≤ digitChar n ∧ digitChar n ≤ '9' := by
  revert n; decide

theorem eq_zero_of_digitChar {n : Nat} (h : n < 10) (hchar : digitChar n = '0') : n = 0 := by
  revert n; decide

/-- The leading digit is that of the highest power of ten in the value, so it is 0 for the value 0 alone. -/
theorem eq_zero_of_decimal_head {v : Byte} (h : (decimal v).head? = some '0') : v = 0 := by
  have hbyte : v.toNat < 256 := v.isLt
  refine BitVec.eq_of_toNat_eq (?_ : v.toNat = 0)
  simp only [decimal] at h
  split at h
  · next hone => exact eq_zero_of_digitChar hone (Option.some.inj h)
  · split at h
    · have hten : v.toNat / 10 = 0 := eq_zero_of_digitChar (by omega) (Option.some.inj h)
      omega
    · have hhundred : v.toNat / 100 = 0 := eq_zero_of_digitChar (by omega) (Option.some.inj h)
      omega

/-- Settles O28: a byte's text reads back as its value (`digitsValue_decimal`), and only 0 leads with the digit 0. -/
theorem outputTextIsOneDecimalLinePerValue : Obligations.OutputTextIsOneDecimalLinePerValue := by
  refine ⟨rfl, hostText_emitOut, fun v => ⟨decimal_ne_nil v, fun c hc => ?_, digitsValue_decimal v, fun hhead => ?_⟩⟩
  · obtain ⟨n, hn, rfl⟩ := mem_decimal hc
    exact digitChar_between hn
  · rw [eq_zero_of_decimal_head hhead]
    rfl

end Sys2Proof.Machine

/-! ## PUSH and POP (R130 to R134; R7 by D5) -/

namespace Sys2Proof.Machine

variable {s t u : State}

/-- What PUSH and POP leave alone beside registers and memory, and their default advance. -/
def KeepsRestAndAdvances (n : Nat) (s t : State) : Prop :=
  t.fl = s.fl ∧ KeepsOutputs s t ∧ KeepsRunState s t ∧ Advances n s t

theorem KeepsRestAndAdvances.trans {m n : Nat} (hst : KeepsRestAndAdvances m s t) (htu : KeepsRestAndAdvances n t u) :
    KeepsRestAndAdvances (m + n) s u := by
  obtain ⟨hfl, ⟨hout, hdiag⟩, ⟨hrun, hrecord⟩, hpc⟩ := hst
  obtain ⟨hfl', ⟨hout', hdiag'⟩, ⟨hrun', hrecord'⟩, hpc'⟩ := htu
  exact ⟨hfl'.trans hfl, ⟨hout'.trans hout, hdiag'.trans hdiag⟩, ⟨hrun'.trans hrun, hrecord'.trans hrecord⟩,
    hpc.trans hpc'⟩

theorem sub_one_toNat (a : Byte) : (a - 1).toNat = (a.toNat + 255) % 256 := by
  rw [BitVec.toNat_sub, Nat.add_comm]
  rfl

theorem add_one_toNat (a : Byte) : (a + 1).toNat = (a.toNat + 1) % 256 := BitVec.toNat_add a 1

/-! Each instruction on its own. The byte pushed is `(decSp s).reg r`, which `decSp_reg` computes. -/

theorem push_reg {r : Reg} (h : exec (.push r.toByte) s = .next t) (q : Reg) : t.reg q = (decSp s).reg q := by
  rw [(LegalStep.push r s).eq_of_exec h]
  rfl

theorem push_sp {r : Reg} (h : exec (.push r.toByte) s = .next t) : t.sp = s.sp - 1 :=
  (push_reg h Reg.sp).trans (decSp_sp s)

theorem push_memRead {r : Reg} (h : exec (.push r.toByte) s = .next t) (a : Byte) :
    memRead a t = if a = s.sp - 1 then (decSp s).reg r else memRead a s := by
  rw [(LegalStep.push r s).eq_of_exec h, State.advance_memRead, memRead_store_below_sp]

theorem push_memRead_sp {r : Reg} (h : exec (.push r.toByte) s = .next t) : memRead t.sp t = (decSp s).reg r := by
  rw [push_memRead h, if_pos (push_sp h)]

theorem push_keepsMemory {r : Reg} (h : exec (.push r.toByte) s = .next t) : KeepsMemory [s.sp - 1] s t := by
  intro a ha
  rw [push_memRead h, if_neg (List.ne_of_not_mem_cons ha)]

theorem push_keepsRest {r : Reg} (h : exec (.push r.toByte) s = .next t) : KeepsRestAndAdvances 2 s t := by
  rw [(LegalStep.push r s).eq_of_exec h]
  exact ⟨rfl, ⟨rfl, rfl⟩, ⟨rfl, rfl⟩, advances_of_pc_eq rfl⟩

/-- POP's load comes first, so with R7 it is the loaded byte that is incremented (D5). -/
theorem pop_sp {r : Reg} (h : exec (.pop r.toByte) s = .next t) :
    t.sp = (if r = 7 then memRead s.sp s else s.sp) + 1 := by
  have hsp : t.sp = (s.setReg r (memRead s.sp s)).sp + 1 := by
    rw [(LegalStep.pop r s).eq_of_exec h]
    exact State.reg_setReg_same _ Reg.sp _
  simpa only [State.sp, State.reg_setReg, eq_comm (a := Reg.sp)] using hsp

theorem pop_reg {r q : Reg} (h : exec (.pop r.toByte) s = .next t) (hq : q ≠ 7) :
    t.reg q = if q = r then memRead s.sp s else s.reg q := by
  rw [(LegalStep.pop r s).eq_of_exec h]
  exact (State.reg_setReg_other _ hq _).trans (State.reg_setReg s r q _)

theorem pop_memRead {r : Reg} (h : exec (.pop r.toByte) s = .next t) (a : Byte) : memRead a t = memRead a s := by
  rw [(LegalStep.pop r s).eq_of_exec h]
  rfl

theorem pop_keepsRest {r : Reg} (h : exec (.pop r.toByte) s = .next t) : KeepsRestAndAdvances 2 s t := by
  rw [(LegalStep.pop r s).eq_of_exec h]
  exact ⟨rfl, ⟨rfl, rfl⟩, ⟨rfl, rfl⟩, advances_of_pc_eq rfl⟩

/-- Settles O29. -/
theorem pushStoresBelowStackPointer : Obligations.PushStoresBelowStackPointer := by
  intro ra s
  obtain ⟨t, hpush⟩ := exec_answers_next (.push ra.toByte) s
  have hsp : t.sp = s.sp - 1 := push_sp hpush
  refine ⟨t, hpush, hsp ▸ sub_one_toNat s.sp, ?_, fun q hq => ?_, hsp ▸ push_keepsMemory hpush, push_keepsRest hpush⟩
  · rw [push_memRead_sp hpush, decSp_reg, hsp]
  · rw [push_reg hpush, decSp_reg, if_neg (List.ne_of_not_mem_cons hq)]

/-- Settles O30. -/
theorem popLoadsAtStackPointer : Obligations.PopLoadsAtStackPointer := by
  intro ra s
  obtain ⟨t, hpop⟩ := exec_answers_next (.pop ra.toByte) s
  have hsp := pop_sp hpop
  refine ⟨t, hpop, fun hra => ⟨?_, ?_⟩, fun hra => ?_, fun q hq => ?_, fun a _ => pop_memRead hpop a,
    pop_keepsRest hpop⟩
  · rw [pop_reg hpop hra, if_pos rfl]
  · rw [hsp, if_neg hra, add_one_toNat]
  · rw [hsp, if_pos hra, add_one_toNat]
  · obtain ⟨hra, hq7⟩ : q ≠ ra ∧ q ≠ 7 := by simpa using hq
    rw [pop_reg hpop hq7, if_neg hra]

/-! ## PUSH followed by POP (R133, R134): POP loads the byte that PUSH stored, at the SP that PUSH left -/

section

variable {src dst : Reg} (hpush : exec (.push src.toByte) s = .next t) (hpop : exec (.pop dst.toByte) t = .next u)

include hpush hpop

theorem push_pop_sp : u.sp = if dst = 7 then (decSp s).reg src + 1 else s.sp := by
  rw [pop_sp hpop, push_memRead_sp hpush, push_sp hpush, apply_ite (· + 1), BitVec.sub_add_cancel]

theorem push_pop_reg {q : Reg} (hq : q ≠ 7) : u.reg q = if q = dst then (decSp s).reg src else s.reg q := by
  rw [pop_reg hpop hq, push_memRead_sp hpush, push_reg hpush, decSp_reg s q, if_neg hq]

theorem push_pop_memRead (a : Byte) : memRead a u = if a = s.sp - 1 then (decSp s).reg src else memRead a s :=
  (pop_memRead hpop a).trans (push_memRead hpush a)

theorem push_pop_keepsMemory : KeepsMemory [s.sp - 1] s u := fun a ha =>
  (pop_memRead hpop a).trans (push_keepsMemory hpush a ha)

end

/-- PUSH and POP of the same register restore it: R7 is decremented, stored, loaded and incremented. -/
theorem push_pop_same_reg {r : Reg} (hpush : exec (.push r.toByte) s = .next t)
    (hpop : exec (.pop r.toByte) t = .next u) (q : Reg) : u.reg q = s.reg q := by
  by_cases hq : q = 7
  · subst hq
    refine (push_pop_sp hpush hpop).trans ?_
    rw [decSp_reg]
    split
    · exact BitVec.sub_add_cancel _ _
    · rfl
  · rw [push_pop_reg hpush hpop hq]
    split
    · next hqr => rw [← hqr, decSp_reg, if_neg hq]
    · rfl

/-- Settles O31. -/
theorem pushThenPopRestoresRegister : Obligations.PushThenPopRestoresRegister := by
  intro r s
  obtain ⟨t, hpush⟩ := exec_answers_next (.push r.toByte) s
  obtain ⟨u, hpop⟩ := exec_answers_next (.pop r.toByte) t
  refine ⟨t, u, hpush, hpop, fun q _ => push_pop_same_reg hpush hpop q, push_pop_keepsMemory hpush hpop, ?_,
    (push_keepsRest hpush).trans (pop_keepsRest hpop)⟩
  rw [push_pop_memRead hpush hpop, if_pos rfl, decSp_reg]

/-- Settles O32: the copied byte is the pushed one, `(decSp s).reg src`. -/
theorem pushThenPopCopiesRegister : Obligations.PushThenPopCopiesRegister := by
  intro src dst s
  obtain ⟨t, hpush⟩ := exec_answers_next (.push src.toByte) s
  obtain ⟨u, hpop⟩ := exec_answers_next (.pop dst.toByte) t
  have hsp := push_pop_sp hpush hpop
  rw [← decSp_reg s src]
  refine ⟨t, u, hpush, hpop, fun hdst => ⟨?_, ?_⟩, fun hdst => ?_, fun q hq => ?_, push_pop_keepsMemory hpush hpop⟩
  · rw [push_pop_reg hpush hpop hdst, if_pos rfl]
  · rw [hsp, if_neg hdst]
  · rw [hsp, if_pos hdst]
  · obtain ⟨hqdst, hq7⟩ : q ≠ dst ∧ q ≠ 7 := by simpa using hq
    rw [push_pop_reg hpush hpop hq7, if_neg hqdst]

end Sys2Proof.Machine

/-! ## CALL and RET (R141, R142; R7 by D5) -/

namespace Sys2Proof.Machine

variable {s t u : State}

theorem call_sp {r : Reg} (h : exec (.call r.toByte) s = .next t) : t.sp = s.sp - 1 := by
  rw [(LegalStep.call r s).eq_of_exec h]
  exact decSp_sp s

theorem call_keepsRegisters {r : Reg} (h : exec (.call r.toByte) s = .next t) : KeepsRegisters [7] s t :=
  (LegalStep.call r s).eq_of_exec h ▸ (LegalStep.call r s).keepsRegisters

theorem call_memRead {r : Reg} (h : exec (.call r.toByte) s = .next t) (a : Byte) :
    memRead a t = if a = s.sp - 1 then s.pc + 2 else memRead a s := by
  rw [(LegalStep.call r s).eq_of_exec h, State.jump_memRead, memRead_store_below_sp]

/-- The return address is that of the instruction behind the CALL (C1). -/
theorem call_memRead_sp {r : Reg} (h : exec (.call r.toByte) s = .next t) : memRead t.sp t = s.pc + 2 := by
  rw [call_memRead h, if_pos (call_sp h)]

theorem call_keepsMemory {r : Reg} (h : exec (.call r.toByte) s = .next t) : KeepsMemory [t.sp] s t := by
  intro a ha
  rw [call_memRead h, if_neg (call_sp h ▸ List.ne_of_not_mem_cons ha)]

theorem call_keepsRest {r : Reg} (h : exec (.call r.toByte) s = .next t) :
    t.fl = s.fl ∧ KeepsOutputs s t ∧ KeepsRunState s t := by
  rw [(LegalStep.call r s).eq_of_exec h]
  exact ⟨rfl, ⟨rfl, rfl⟩, ⟨rfl, rfl⟩⟩

theorem ret_pc (h : exec .ret s = .next t) : t.pc = memRead s.sp s := by
  rw [(LegalStep.ret s).eq_of_exec h]
  rfl

theorem ret_sp (h : exec .ret s = .next t) : t.sp = s.sp + 1 := by
  rw [(LegalStep.ret s).eq_of_exec h]
  exact State.reg_setReg_same _ Reg.sp _

theorem add_two_toNat (a : Byte) : (a + 2).toNat = (a.toNat + 2) % 256 := BitVec.toNat_add a 2

/-- Settles O35: RET takes pc from the byte that CALL stored, and its increment undoes CALL's decrement of SP. -/
theorem retAfterCallReturnsBehindCall : Obligations.RetAfterCallReturnsBehindCall := by
  intro ra s t u hcall hsp hbyte
  obtain ⟨v, hret⟩ := exec_answers_next .ret u
  have hpc : v.pc = s.pc + 2 := (ret_pc hret).trans (hbyte.trans (call_memRead_sp hcall))
  refine ⟨v, hret, hpc ▸ add_two_toNat s.pc, ?_⟩
  calc v.sp = t.sp + 1 := hsp ▸ ret_sp hret
    _ = s.sp - 1 + 1 := by rw [call_sp hcall]
    _ = s.sp := BitVec.sub_add_cancel s.sp 1

/-- Settles O33: with R7 the target is the decremented SP, which is also the address of the store (D5). -/
theorem callStoresReturnAddress : Obligations.CallStoresReturnAddress := by
  intro ra s
  obtain ⟨t, hcall⟩ := exec_answers_next (.call ra.toByte) s
  have hsp : t.sp = s.sp - 1 := call_sp hcall
  exact ⟨t, hcall, hsp ▸ sub_one_toNat s.sp, call_memRead_sp hcall ▸ add_two_toNat s.pc, hsp ▸ call_pc hcall,
    call_keepsRegisters hcall, call_keepsMemory hcall, call_keepsRest hcall⟩

/-- Settles O34: RET's state differs from the one before in pc and SP alone. -/
theorem retJumpsToStackedByte : Obligations.RetJumpsToStackedByte := by
  intro s
  have hret := (LegalStep.ret s).exec_eq
  exact ⟨_, hret, ret_pc hret, ret_sp hret ▸ add_one_toNat s.sp, (LegalStep.ret s).keepsRegisters,
    keepsMemory_of_mem_eq rfl _, rfl, ⟨rfl, rfl⟩, ⟨rfl, rfl⟩⟩

/-! ## JMP, JEQ and JNE (R143 to R145) -/

/-- What JMP, JEQ and JNE leave alone: all of the state but pc. -/
def KeepsAllButPc (s t : State) : Prop :=
  KeepsRegisters [] s t ∧ t.fl = s.fl ∧ KeepsMemory [] s t ∧ KeepsOutputs s t ∧ KeepsRunState s t

theorem keepsAllButPc_jump (s : State) (target : Byte) : KeepsAllButPc s (s.jump target) :=
  ⟨fun _ _ => rfl, rfl, keepsMemory_of_mem_eq rfl _, ⟨rfl, rfl⟩, ⟨rfl, rfl⟩⟩

theorem keepsAllButPc_advance (s : State) (n : Nat) : KeepsAllButPc s (s.advance n) :=
  keepsAllButPc_jump s (s.pc + BitVec.ofNat 8 n)

theorem jeq_keepsAllButPc {r : Reg} (h : exec (.jeq r.toByte) s = .next t) : KeepsAllButPc s t := by
  cases he : s.equal
  · exact (LegalStep.jeq_not_taken r s he).eq_of_exec h ▸ keepsAllButPc_advance s 2
  · exact (LegalStep.jeq_taken r s he).eq_of_exec h ▸ keepsAllButPc_jump s (s.reg r)

theorem jne_keepsAllButPc {r : Reg} (h : exec (.jne r.toByte) s = .next t) : KeepsAllButPc s t := by
  cases he : s.equal
  · exact (LegalStep.jne_taken r s he).eq_of_exec h ▸ keepsAllButPc_jump s (s.reg r)
  · exact (LegalStep.jne_not_taken r s he).eq_of_exec h ▸ keepsAllButPc_advance s 2

/-- The bit that JEQ and JNE test is bit 0 of FL (D2), whatever the other bits hold (C5). -/
theorem State.equal_eq_getLsbD (s : State) : s.equal = s.fl.getLsbD 0 := rfl

/-- Settles O36. -/
theorem jmpWritesOnlyPc : Obligations.JmpWritesOnlyPc := fun ra s =>
  ⟨_, (LegalStep.jmp ra s).exec_eq, rfl, keepsAllButPc_jump s (s.reg ra)⟩

/-- Settles O37: when one of the two branches jumps, the other advances. -/
theorem conditionalJumpsTestEqualBit : Obligations.ConditionalJumpsTestEqualBit := by
  intro ra s
  obtain ⟨t, hjeq⟩ := exec_answers_next (.jeq ra.toByte) s
  obtain ⟨u, hjne⟩ := exec_answers_next (.jne ra.toByte) s
  have ht := jeq_jumps_or_advances hjeq
  have hu := jne_jumps_or_advances hjne
  obtain ⟨hreg, hfl, hmem, hout, hrun⟩ := jeq_keepsAllButPc hjeq
  rw [State.equal_eq_getLsbD] at ht hu
  refine ⟨t, u, hjeq, hjne, fun he => ?_, fun he => ?_, hreg, hfl, hmem, hout, hrun, jne_keepsAllButPc hjne⟩
  · rw [he] at ht hu
    exact ⟨ht, hu⟩
  · rw [he] at ht hu
    exact ⟨hu, ht⟩

end Sys2Proof.Machine

/-! ## The unrecognised opcode (R160, R161; D7, C2) -/

namespace Sys2Proof.Machine

/-- The length by the value of the opcode byte (R61). -/
theorem lengthOf_eq (op : Byte) :
    lengthOf op = if 128 ≤ op.toNat then 3 else if 64 ≤ op.toNat then 2 else 1 := by
  rw [lengthOf, formatOf_eq]
  split_ifs <;> rfl

/-- Settles O40: the state differs from the one before in the diagnostic stream and pc alone. -/
theorem unrecognisedOpcodeIsReportedAndSkipped : Obligations.UnrecognisedOpcodeIsReportedAndSkipped := by
  intro op x y s
  have hstep := LegalStep.unrecognised op x y s
  exact ⟨_, hstep.exec_eq, emitDiag_diag s op s.pc, rfl, hstep.keepsRegisters, rfl, keepsMemory_of_mem_eq rfl _,
    ⟨rfl, rfl⟩, lengthOf_eq op ▸ hstep.advances rfl⟩

end Sys2Proof.Machine

/-! ## The bad register operand and the events of a step (R173 to R177; D4, D7) -/

namespace Sys2Proof.Machine

variable {i : Instr} {s t : State}

theorem badRegister_of_first {a : Byte} (hops : ∃ l, i.registerOperands = a :: l) (ha : 8 ≤ a.toNat) :
    i.badRegister = some a := by
  obtain ⟨l, hl⟩ := hops
  rw [Instr.badRegister, hl, findBad_bad ha]

theorem badRegister_of_second {a b : Byte} (hops : i.registerOperands = [a, b]) (ha : a.toNat < 8)
    (hb : 8 ≤ b.toNat) : i.badRegister = some b := by
  rw [Instr.badRegister, hops, List.find?_cons_of_neg (by simpa using ha), findBad_bad hb]

/-- Settles O41: `exec_of_badRegister` at the first operand, or at the second behind a legal first one. -/
theorem badRegisterOperandFaultsPrecisely : Obligations.BadRegisterOperandFaultsPrecisely := by
  refine fun a b s => ⟨fun ha i hi => ?_, fun ha hb i hi => ?_⟩
  · have hops : ∃ l, i.registerOperands = a :: l := by
      revert i
      simp [Instr.registerOperands]
    exact exec_of_badRegister (badRegister_of_first hops ha) s
  · have hops : i.registerOperands = [a, b] := by
      revert i
      simp [Instr.registerOperands]
    exact exec_of_badRegister (badRegister_of_second hops ha hb) s

/-- Settles O42: an execution that does not fault on a bad operand is a legal step, which does not enter FAULTED. -/
theorem onlyBadRegisterOperandFaults : Obligations.OnlyBadRegisterOperandFaults := by
  intro i s t hexec hs ht
  rcases exec_cases hexec with ⟨r, hbad, -⟩ | hlegal
  · exact ⟨r, badRegister_some hbad⟩
  · exact absurd ht (hlegal.runState_ne_faulted hs)

theorem eventOf_of_badRegister {r : Byte} (h : i.badRegister = some r) (addr : Byte) :
    eventOf addr i = some (.faultBadRegisterIndex r addr) := by
  cases i
  case unrecognised => cases h
  all_goals simp only [eventOf, h]

/-- An instruction with legal operands that reports nothing has no event. -/
theorem eventOf_eq_none (hlegal : i.badRegister = none) (hreports : emittedReports i s = []) (addr : Byte) :
    eventOf addr i = none := by
  cases i
  case unrecognised => cases hreports
  all_goals simp only [eventOf, hlegal]

/-- Settles O43: the fetched instruction faults, reports an unrecognised opcode, or is a legal step without a report. -/
theorem stepProducesAtMostItsEvent : Obligations.StepProducesAtMostItsEvent := by
  intro s t hstep
  obtain ⟨hrun, hexec⟩ := step_next hstep
  rcases exec_cases hexec with ⟨r, hbad, rfl⟩ | hlegal
  · rw [eventOf_of_badRegister hbad]
    exact ⟨rfl, rfl, rfl⟩
  · rcases emittedReports_cases (fetchInstr s) s with hnil | ⟨op, x, y, hfetch, -⟩
    · have hdiag : t.diag = s.diag := by rw [(exec_appends hexec).2, hnil, List.append_nil]
      rw [eventOf_eq_none hlegal.badRegister hnil]
      exact ⟨hdiag, hlegal.faultRecord_eq, hlegal.runState_ne_faulted (by simp [hrun])⟩
    · rw [hfetch] at hexec ⊢
      rw [(LegalStep.unrecognised op x y s).eq_of_exec hexec]
      exact ⟨rfl, rfl, hrun⟩

end Sys2Proof.Machine

/-! ## The reset event (R190, R191; D17) -/

namespace Sys2Proof.Machine

theorem resetEvent_eq_with_mem (image : List Byte) (before : State) :
    resetEvent image before = { State.reset with mem := (loadImage image State.reset).mem } :=
  loadImage_eq_with_mem image State.reset

/-- Settles O3: registers and pc are those of `resetRegistersAndPc`, and the rest but memory is the reset state's. -/
theorem resetEventDiscardsEarlierState : Obligations.ResetEventDiscardsEarlierState := by
  intro image before
  obtain ⟨hreg, hpc⟩ := resetRegistersAndPc image
  have hreset := resetEvent_eq_with_mem image before
  exact ⟨hreg, hpc, congrArg State.fl hreset, congrArg State.runState hreset, congrArg State.out hreset,
    congrArg State.diag hreset, congrArg State.faultRecord hreset, rfl⟩

theorem loadFrom_mem_wf (image : List Byte) (k : Nat) {s : State} (h : s.mem.wf) : (loadFrom k image s).mem.wf := by
  induction image generalizing k s with
  | nil => exact h
  | cons v vs ih => exact ih (k + 1) (memWriteAt_wf h k v.toNat)

/-- The reset state meets the invariant whatever canonical memory it is given: FL is 0, nothing is reported, and no
fault is recorded. -/
theorem reset_with_mem_inv {m : Memory} (hm : m.wf) : { State.reset with mem := m }.Inv where
  memory := hm
  flags := fun _ _ => BitVec.getLsbD_zero
  reports := List.forall_mem_nil _
  fault := rfl

/-- Settles O53: an image goes into the canonical empty memory byte by byte, and each store keeps the form. -/
theorem invariantHoldsAfterReset : Obligations.InvariantHoldsAfterReset := by
  refine ⟨reset_with_mem_inv reset_memory_wf, fun image before => ?_⟩
  rw [resetEvent_eq_with_mem]
  exact reset_with_mem_inv (loadFrom_mem_wf image 0 reset_memory_wf)

end Sys2Proof.Machine

/-! ## The lines of an image text (R196; D14) -/

namespace Sys2Proof.Machine

/-- The binary digit of a bit. -/
def bitChar (b : Bool) : Char := if b then '1' else '0'

theorem isBinaryDigit_of_mem_bits {bits : List Bool} : ∀ c ∈ bits.map bitChar, isBinaryDigit c = true :=
  List.forall_mem_map.mpr fun b _ => by cases b <;> rfl

/-- One more digit doubles the value and adds the digit. -/
theorem binaryValue_concat (ds : List Char) (b : Bool) :
    binaryValue (ds ++ [bitChar b]) = 2 * binaryValue ds + b.toNat := by
  rw [binaryValue, List.foldl_append]
  cases b <;> rfl

/-- The digits run from the most significant down, and `Nat.ofDigits` reads them from the other end. -/
theorem binaryValue_bits (bits : List Bool) :
    binaryValue (bits.map bitChar) = Nat.ofDigits 2 (bits.reverse.map Bool.toNat) := by
  induction bits using List.reverseRecOn with
  | nil => rfl
  | append_singleton bits b ih =>
    rw [List.map_append, List.map_singleton, binaryValue_concat, ih, List.reverse_concat, List.map_cons,
      Nat.ofDigits_cons, Nat.add_comm]

theorem takeWhile_isBinaryDigit_eq_nil {t : List Char} (h : ∀ c, t.head? = some c → isBinaryDigit c = false) :
    t.takeWhile isBinaryDigit = [] := by
  cases t with
  | nil => rfl
  | cons c t => exact List.takeWhile_cons_of_neg (Bool.not_eq_true _ ▸ h c rfl)

theorem imageLine_eq_none {line : List Char} (h : line.takeWhile isBinaryDigit = []) : imageLine line = none := by
  rw [imageLine, h]

theorem imageLine_eq_some {line ds : List Char} (h : line.takeWhile isBinaryDigit = ds) (hds : ds ≠ []) :
    imageLine line = some (BitVec.ofNat 8 (binaryValue ds)) := by
  obtain ⟨d, ds, rfl⟩ := List.exists_cons_of_ne_nil hds
  rw [imageLine, h]

theorem imageLine_bits_append {bits : List Bool} {rest : List Char} (hbits : bits ≠ [])
    (hrest : ∀ c, rest.head? = some c → isBinaryDigit c = false) :
    imageLine (bits.map bitChar ++ rest) =
      some (BitVec.ofNat 8 (Nat.ofDigits 2 (bits.reverse.map Bool.toNat))) := by
  have hrun : (bits.map bitChar ++ rest).takeWhile isBinaryDigit = bits.map bitChar := by
    rw [List.takeWhile_append_of_pos isBinaryDigit_of_mem_bits, takeWhile_isBinaryDigit_eq_nil hrest, List.append_nil]
  rw [imageLine_eq_some hrun (mt List.map_eq_nil_iff.mp hbits), binaryValue_bits]

theorem filterMap_imageLine_cons (line : List Char) (lines : List (List Char)) :
    (line :: lines).filterMap imageLine = (imageLine line).toList ++ lines.filterMap imageLine := by
  rw [List.filterMap_cons]
  cases imageLine line <;> rfl

section
variable {line : List Char} (h : '\n' ∉ line)
include h

theorem beq_newline_eq_false : ∀ c ∈ line, (c == '\n') = false := fun _ hc =>
  beq_false_of_ne (ne_of_mem_of_not_mem hc h)

theorem imageOfText_line : imageOfText line = (imageLine line).toList := by
  rw [imageOfText, splitText_of_no_sep (beq_newline_eq_false h), filterMap_imageLine_cons, List.filterMap_nil,
    List.append_nil]

theorem imageOfText_line_cons (text : List Char) :
    imageOfText (line ++ '\n' :: text) = (imageLine line).toList ++ imageOfText text := by
  rw [imageOfText, splitText_append_sep (beq_newline_eq_false h) rfl, filterMap_imageLine_cons, imageOfText]

end

/-- Settles O4: the leading run of digits is read from its last digit back, and a text is cut at its line feeds. -/
theorem imageLineReadsBinaryLiteral : Obligations.ImageLineReadsBinaryLiteral :=
  ⟨fun _ _ hbits hrest => imageLine_bits_append hbits hrest,
    fun _ hline => imageLine_eq_none (takeWhile_isBinaryDigit_eq_nil hline),
    fun _ text hline => ⟨imageOfText_line hline, imageOfText_line_cons hline text⟩⟩

end Sys2Proof.Machine
